-- ==== Sys2Proof/Word.lean ====
section
/-!
DEFINITION. The bit-vector types of the CORE, each under the name spec/00_scope.md gives it. All values are unsigned (R8).
-/

namespace Sys2Proof

/-- A Word: "a 15-bit unsigned value, domain 0-32767" (R14); what a register holds (R15). -/
abbrev Word := BitVec 15

/-- One 16-bit instruction slot, or one 16-bit stack entry (R6 `OPERAND_BITS`, `STACK_ENTRY_BITS`). -/
abbrev Slot := BitVec 16

/-- One byte of RAM or of a channel. -/
abbrev Byte := BitVec 8

/-- A 17-bit byte offset: the pc and the two wide fields of the fault record (R19, R24). -/
abbrev ByteOffset := BitVec 17

/-- A general register's index 0..7 (R15). -/
abbrev RegIdx := Fin 8

end Sys2Proof
end

