-- ==== Sys2Proof/Syntax.lean ====
section
/-!
DEFINITION. The instructions, one constructor for each row of spec/opcode_table.json, with operands in the slot order
a, b, c (R13, R58).
-/

namespace Sys2Proof

/-- A decoded operand slot: exactly one of the three classes of R53. -/
inductive Operand where
  /-- A raw value 0..32767: the Word itself. -/
  | lit (w : Word)
  /-- A raw value 32768..32775: register `raw - 32768`. -/
  | reg (r : RegIdx)
  /-- A raw value 32776..65535, kept because the fault it raises reports it (R54 to R56). -/
  | invalid (raw : Slot)
deriving DecidableEq, Repr

/-- The three kinds of operand slot of R58. -/
inductive OperandKind where
  /-- `R`, a destination register (R55). -/
  | register
  /-- `V`, a value (R54). -/
  | value
  /-- `A`, a word address (R56). -/
  | address
deriving DecidableEq, Repr

/-- The 22 instructions of R58. `inp` is the row `in`, whose name is a word of Lean's own. -/
inductive Instr where
  | halt
  | set (a b : Operand)
  | push (a : Operand)
  | pop (a : Operand)
  | eq (a b c : Operand)
  | gt (a b c : Operand)
  | jmp (a : Operand)
  | jt (a b : Operand)
  | jf (a b : Operand)
  | add (a b c : Operand)
  | mult (a b c : Operand)
  | mod (a b c : Operand)
  | and (a b c : Operand)
  | or (a b c : Operand)
  | not (a b : Operand)
  | rmem (a b : Operand)
  | wmem (a b : Operand)
  | call (a : Operand)
  | ret
  | out (a : Operand)
  | inp (a : Operand)
  | noop
deriving DecidableEq, Repr

end Sys2Proof
end

