-- ==== Sys2Proof/WellFormed.lean ====
section
/-!
DEFINITION. Which instruction terms stand for words in RAM. The only term an encoding cannot produce is an operand marked
invalid whose raw value has a meaning (R53). An operand of the wrong class for its slot (a literal in an R slot) does stand
for words: the machine fetches it and faults when it runs (R59), so it is well formed.
-/

namespace Sys2Proof

/-- The raw value of an invalid operand lies in 32776..65535 (R53). -/
def Operand.wf : Operand → Bool
  | .lit _ => true
  | .reg _ => true
  | .invalid raw => decide (32776 ≤ raw.toNat)

/-- The operands in slot order a, b, c, each with the kind R58 gives its slot. -/
def Instr.operands : Instr → List (OperandKind × Operand)
  | .halt => []
  | .set a b => [(.register, a), (.value, b)]
  | .push a => [(.value, a)]
  | .pop a => [(.register, a)]
  | .eq a b c => [(.register, a), (.value, b), (.value, c)]
  | .gt a b c => [(.register, a), (.value, b), (.value, c)]
  | .jmp a => [(.address, a)]
  | .jt a b => [(.value, a), (.address, b)]
  | .jf a b => [(.value, a), (.address, b)]
  | .add a b c => [(.register, a), (.value, b), (.value, c)]
  | .mult a b c => [(.register, a), (.value, b), (.value, c)]
  | .mod a b c => [(.register, a), (.value, b), (.value, c)]
  | .and a b c => [(.register, a), (.value, b), (.value, c)]
  | .or a b c => [(.register, a), (.value, b), (.value, c)]
  | .not a b => [(.register, a), (.value, b)]
  | .rmem a b => [(.register, a), (.address, b)]
  | .wmem a b => [(.address, a), (.value, b)]
  | .call a => [(.address, a)]
  | .ret => []
  | .out a => [(.value, a)]
  | .inp a => [(.register, a)]
  | .noop => []

/-- Every operand is well formed. -/
def Instr.wf (i : Instr) : Bool :=
  i.operands.all fun o => o.2.wf

/-- Whether an operand is one its kind of slot accepts (R59). -/
def Operand.accepted : OperandKind → Operand → Bool
  | .register, .lit _ => false
  | .register, .reg _ => true
  | .register, .invalid _ => false
  | .value, .lit _ => true
  | .value, .reg _ => true
  | .value, .invalid _ => false
  | .address, .lit _ => true
  | .address, .reg _ => true
  | .address, .invalid _ => false

/-- Every operand is accepted by its slot: the instruction raises no operand fault (R59). -/
def Instr.operandsAccepted (i : Instr) : Bool :=
  i.operands.all fun o => o.2.accepted o.1

end Sys2Proof
end

