-- ==== Sys2Proof/Decode.lean ====
section
/-!
DEFINITION. The decoder from bytes as they lie in RAM (R50 to R53, R58 to R60, R63), and the encoder written from the same
tables. Slots are little-endian (R33).
-/

namespace Sys2Proof

/-- The 16-bit value `hi · 256 + lo` of two bytes, `{hi, lo}` (R9, R33). -/
def slotOfBytes (lo hi : Byte) : Slot := BitVec.ofNat 16 (hi.toNat * 256 + lo.toNat)

/-- The low byte of a slot, `v[7:0]` (R9). -/
def lowByte (v : Slot) : Byte := BitVec.ofNat 8 (v.toNat % 256)

/-- The high byte of a slot, `v[15:8]` (R9). -/
def highByte (v : Slot) : Byte := BitVec.ofNat 8 (v.toNat / 256)

/-- Operand classification (R53). -/
def classify (raw : Slot) : Operand :=
  if raw.toNat ≤ 32767 then .lit (raw.setWidth 15)
  else if raw.toNat ≤ 32775 then .reg (Fin.ofNat 8 (raw.toNat - 32768))
  else .invalid raw

/-- Why bytes are no instruction. -/
inductive DecodeError where
  /-- The opcode byte is in 22..255 (R59). -/
  | illegalOpcode (op : Byte)
  /-- The bytes end before the last of the instruction's `n` operand slots (R61). -/
  | truncated (n : Nat)
deriving DecidableEq, Repr

/-- Format F0: no operand slot (R51). -/
def format0 (i : Instr) (bytes : List Byte) : Except DecodeError (Instr × List Byte) :=
  .ok (i, bytes)

/-- Format F1: operand slot a (R51). -/
def format1 (mk : Operand → Instr) : List Byte → Except DecodeError (Instr × List Byte)
  | a0 :: a1 :: rest => .ok (mk (classify (slotOfBytes a0 a1)), rest)
  | _ => .error (.truncated 1)

/-- Format F2: operand slots a, b (R51). -/
def format2 (mk : Operand → Operand → Instr) : List Byte → Except DecodeError (Instr × List Byte)
  | a0 :: a1 :: b0 :: b1 :: rest =>
    .ok (mk (classify (slotOfBytes a0 a1)) (classify (slotOfBytes b0 b1)), rest)
  | _ => .error (.truncated 2)

/-- Format F3: operand slots a, b, c (R51). -/
def format3 (mk : Operand → Operand → Operand → Instr) :
    List Byte → Except DecodeError (Instr × List Byte)
  | a0 :: a1 :: b0 :: b1 :: c0 :: c1 :: rest =>
    .ok (mk (classify (slotOfBytes a0 a1)) (classify (slotOfBytes b0 b1))
      (classify (slotOfBytes c0 c1)), rest)
  | _ => .error (.truncated 3)

/-- The opcode map (R58): the instruction an opcode byte selects, read from the bytes after the opcode slot. -/
def decodeOpcode (op : Byte) (bytes : List Byte) : Except DecodeError (Instr × List Byte) :=
  match op.toNat with
  | 0 => format0 .halt bytes
  | 1 => format2 .set bytes
  | 2 => format1 .push bytes
  | 3 => format1 .pop bytes
  | 4 => format3 .eq bytes
  | 5 => format3 .gt bytes
  | 6 => format1 .jmp bytes
  | 7 => format2 .jt bytes
  | 8 => format2 .jf bytes
  | 9 => format3 .add bytes
  | 10 => format3 .mult bytes
  | 11 => format3 .mod bytes
  | 12 => format3 .and bytes
  | 13 => format3 .or bytes
  | 14 => format2 .not bytes
  | 15 => format2 .rmem bytes
  | 16 => format2 .wmem bytes
  | 17 => format1 .call bytes
  | 18 => format0 .ret bytes
  | 19 => format1 .out bytes
  | 20 => format1 .inp bytes
  | 21 => format0 .noop bytes
  | _ => .error (.illegalOpcode op)

/-- The instruction at the head of `bytes`, with the bytes after it. The opcode slot's second byte is not examined (R52,
log entry 5).
Fewer than two bytes hold no opcode slot; RAM never shows that, since its size and every fetched pc are even (log entry 13). -/
def decode : List Byte → Except DecodeError (Instr × List Byte)
  | op :: _ophi :: rest => decodeOpcode op rest
  | _ => .error (.truncated 0)

/-- The raw 16-bit value of an operand, the inverse of `classify` on well-formed operands (R53). -/
def Operand.raw : Operand → Slot
  | .lit w => w.setWidth 16
  | .reg r => BitVec.ofNat 16 (32768 + r.val)
  | .invalid raw => raw

/-- The opcode of an instruction (R58). -/
def Instr.opcode : Instr → Byte
  | .halt => 0
  | .set _ _ => 1
  | .push _ => 2
  | .pop _ => 3
  | .eq _ _ _ => 4
  | .gt _ _ _ => 5
  | .jmp _ => 6
  | .jt _ _ => 7
  | .jf _ _ => 8
  | .add _ _ _ => 9
  | .mult _ _ _ => 10
  | .mod _ _ _ => 11
  | .and _ _ _ => 12
  | .or _ _ _ => 13
  | .not _ _ => 14
  | .rmem _ _ => 15
  | .wmem _ _ => 16
  | .call _ => 17
  | .ret => 18
  | .out _ => 19
  | .inp _ => 20
  | .noop => 21

/-- A slot's two bytes in RAM order (R33). -/
def slotBytes (v : Slot) : List Byte := [lowByte v, highByte v]

/-- The 16-bit slots of an instruction, with 0 in the opcode slot's high byte, as an assembler writes it (R51, R64). -/
def encodeSlots (i : Instr) : List Slot :=
  i.opcode.setWidth 16 :: i.operands.map fun o => o.2.raw

/-- The bytes of an instruction in RAM order. -/
def encode (i : Instr) : List Byte :=
  (encodeSlots i).flatMap slotBytes

/-- The number of operands n(op) (R58, R60). -/
def Instr.operandCount (i : Instr) : Nat := i.operands.length

/-- Byte `k` of a number that is laid out least significant byte first. -/
def byteOfNat (w k : Nat) : Byte := BitVec.ofNat 8 (w / 256 ^ k)

/-- The eight bytes of the longest instruction: the low `nbits` bits of `w`, then zeros. -/
def tableBytes (nbits w : Nat) : List Byte :=
  [0, 1, 2, 3, 4, 5, 6, 7].map (byteOfNat (w % 2 ^ nbits))

/-- What the decoder reads from the bits `w` of an instruction, numbered as spec/opcode_table.json numbers them. -/
def decodeTableWord (nbits w : Nat) : Option Instr :=
  match decode (tableBytes nbits w) with
  | .ok (i, _) => some i
  | .error _ => none

end Sys2Proof
end

