-- ==== Sys2Proof/Config.lean ====
section
/-!
DEFINITION. The parameters a model takes as arguments (R6, R7): fixed for one machine, written by no instruction.
-/

namespace Sys2Proof

/-- STACK_DEPTH_MAX, IN_CAP, OUT_CAP and IMAGE (R7). A capacity of `none` is unbounded (R105). -/
structure Config where
  stackDepthMax : Nat
  inCap : Option Nat
  outCap : Option Nat
  image : List Byte
deriving DecidableEq, Repr

/-- A capacity is a whole number of at least 1, or unbounded (R105). -/
def capacityOk : Option Nat → Bool
  | none => true
  | some n => decide (1 ≤ n)

/-- What the spec allows the parameters to be: D12, R105, and at most 65536 image bytes (R29). -/
def Config.wf (c : Config) : Bool :=
  decide (1 ≤ c.stackDepthMax) && decide (c.stackDepthMax ≤ 65535) &&
  capacityOk c.inCap && capacityOk c.outCap && decide (c.image.length ≤ 65536)

/-- The parameters of `State.reset`: the spec's default stack depth 32767 (R6); unbounded channels (DESIGN CHOICE, log
entry 1: the spec leaves the capacities open, and its own vectors start so) and the empty image (log entry 3). -/
def Config.default : Config where
  stackDepthMax := 32767
  inCap := none
  outCap := none
  image := []

end Sys2Proof
end

