-- ==== Sys2Proof/Machine/State.lean ====
section
/-!
DEFINITION. The state of the CORE (spec/10_state.md), its two channels (R105), its parameters (R7), and the host's coming
moves (R106). Plain data throughout.
-/

namespace Sys2Proof.Machine

/-- The engine run state (R23). -/
inductive Status where
  | running
  | halted
  | faulted
deriving DecidableEq, Repr

/-- The fault kinds of R96, with `none` for an empty record. -/
inductive FaultKind where
  | none
  | invalidAddress
  | invalidValue
  | invalidRegister
  | emptyStack
  | ioChannelClosed
  | malformedOpcode
  | divideByZero
  | fetchOutOfRange
  | stackOverflow
  | wordOutOfRange
deriving DecidableEq, Repr

/-- RAM as (byte offset, byte) cells in rising order; a byte with no cell reads as 0 (R29: beyond the image RAM is zero). -/
abbrev Memory := List Host.Cell

/-- What the host may do to the CORE (R106). Reading the status outputs changes nothing and is `State.ports`. -/
inductive HostAction where
  /-- Apply reset (R113, R114). -/
  | reset
  /-- Take the head byte of OutQ. -/
  | takeOutput
  /-- Append a byte to InQ. -/
  | putInput (b : Byte)
  /-- Set `out_closed`. -/
  | closeOutput
  /-- Set `in_closed`. -/
  | closeInput
deriving DecidableEq, Repr

/-- Who makes the next step: the engine, or the host with one act. -/
inductive Turn where
  | engine
  | host (a : HostAction)
deriving DecidableEq, Repr

/-- The whole machine. INVENTORY.md's State section gives the rule of each field. -/
structure State where
  /-- `x[0..7]` (R15). -/
  regs : Vector Word 8
  /-- The byte offset of the current instruction's opcode slot (R18). -/
  pc : ByteOffset
  /-- The run state (R23). -/
  status : Status
  /-- The fault record's kind (R24). -/
  faultKind : FaultKind
  /-- The fault record's pc (R24). -/
  faultIp : ByteOffset
  /-- The fault record's offending value (R24). -/
  faultValue : ByteOffset
  /-- The live stack entries, newest first: the head is `S[SP]` and the last is `S[1]` (R26; log entry 10). -/
  stack : List Slot
  /-- `L`, the stack buffer's length in words (R27). -/
  bufLen : Nat
  /-- RAM (R28). -/
  ram : Memory
  /-- OutQ, head first (R105). -/
  outQ : List Byte
  /-- `out_closed` (R105). -/
  outClosed : Bool
  /-- InQ, head first (R105). -/
  inQ : List Byte
  /-- `in_closed` (R105). -/
  inClosed : Bool
  /-- An `in` or `out` at pc has begun its step and waits on its channel (R39, R112). -/
  held : Bool
  /-- The parameters (R7). -/
  config : Config
  /-- The MODEL's own field: who moves in the coming steps; when it is empty the engine does (log entry 8). -/
  schedule : List Turn
deriving DecidableEq, Repr

/-- No step of this machine ends in a fault of the model: every fault of R96 is entered as R98 describes, as a next state
whose status is FAULTED, so this type has no constructor (log entry 7). -/
inductive Fault
deriving DecidableEq, Repr

/-- Why a step has no meaning. -/
inductive Refusal where
  /-- An instruction without a meaning; no arm of exec raises it now. Safe. -/
  | notModelled (mnemonic : String)
  /-- Raised by a host turn that takes from an empty OutQ, where there is no head byte (R106). Safe. -/
  | hostTakesFromEmptyOutput
  /-- Raised by a host turn that appends to InQ after setting `in_closed`, which R106 forbids. Safe. -/
  | hostPutsAfterClose
  /-- Raised by a host turn that appends to InQ when it holds IN_CAP bytes, which R106 does not allow. Safe. -/
  | hostPutsPastCapacity
deriving DecidableEq, Repr

/-- The machine right after construction or reset (R32, R115), with the parameters of `Config.default`, both channels
open and empty (DESIGN CHOICE, log entry 4) and no host move planned (log entry 8). -/
def State.reset : State where
  regs := Vector.replicate 8 0
  pc := 0
  status := .running
  faultKind := .none
  faultIp := 0
  faultValue := 0
  stack := []
  bufLen := 256
  ram := []
  outQ := []
  outClosed := false
  inQ := []
  inClosed := false
  held := false
  config := Config.default
  schedule := []

end Sys2Proof.Machine
end

