-- ==== Sys2Proof/Machine/Ops.lean ====
section
/-!
DEFINITION. The operations every meaning is written over: RAM (R11, R33), registers (R10), the stack and its resize
controller (R35, R36, R38), the channels (R89, R90), the ways an instruction ends (R12, R61), taking a fault (R98), reset
(R113) and the status outputs (R108).
-/

namespace Sys2Proof.Machine

/-- What a step answers. -/
abbrev StepResult := Host.Outcome State Fault Refusal

/-- RAM size in bytes (R6). -/
def ramBytes : Nat := 65536

/-- The last byte offset at which a slot may start. -/
def lastSlot : Nat := 65534

/-- The pc value that means "halted" (R21). -/
def haltSentinel : ByteOffset := 32769

/-- The smallest stack buffer length (R6 `STACK_FLOOR`). -/
def stackFloor : Nat := 256

/-- The number of bytes of the longest instruction (R50). -/
def maxInstrBytes : Nat := 8

/-! ### RAM -/

/-- `RAM[a]`. A byte with no cell is 0 (R29, R32). -/
def Memory.read : Memory → Nat → Byte
  | [], _ => 0
  | (k, v) :: m, a => if k = a then v else Memory.read m a

/-- A cell put in front of later cells, unless it would hold what an unlisted byte reads as. -/
def Memory.cons (a : Nat) (v : Byte) (m : Memory) : Memory :=
  if v = 0 then m else (a, v) :: m

/-- `RAM[a] <- v`, keeping the cells in rising order. -/
def Memory.write : Memory → Nat → Byte → Memory
  | [], a, v => Memory.cons a v []
  | (k, w) :: m, a, v =>
    if a < k then Memory.cons a v ((k, w) :: m)
    else if a = k then Memory.cons a v m
    else (k, w) :: Memory.write m a v

/-- The cells lie at rising offsets from `lo` on, below the end of RAM, and none holds 0. -/
def Memory.wfFrom (lo : Nat) : Memory → Bool
  | [] => true
  | (k, v) :: m => decide (lo ≤ k) && decide (k < 65536) && decide (v ≠ 0) && Memory.wfFrom (k + 1) m

/-- The canonical form of RAM, so that equal memories are equal data. -/
def Memory.wf (m : Memory) : Bool := Memory.wfFrom 0 m

/-- `MemRead(a, 2)`, little-endian (R11, R33). -/
def Memory.read2 (m : Memory) (a : Nat) : Slot :=
  slotOfBytes (m.read a) (m.read (a + 1))

/-- `MemWrite(a, 2, v)`, little-endian (R11, R33). -/
def Memory.write2 (m : Memory) (a : Nat) (v : Slot) : Memory :=
  (m.write a (lowByte v)).write (a + 1) (highByte v)

/-- The `n` bytes from `a` on. -/
def Memory.bytes (m : Memory) (a : Nat) : Nat → List Byte
  | 0 => []
  | n + 1 => m.read a :: Memory.bytes m (a + 1) n

/-- The bytes `vs` stored from `a` on. -/
def Memory.writeBytes (m : Memory) (a : Nat) : List Byte → Memory
  | [] => m
  | v :: vs => Memory.writeBytes (m.write a v) (a + 1) vs

/-- RAM whose bytes from `a` on are an image and whose other bytes are 0 (R113). -/
def Memory.ofImageFrom (a : Nat) : List Byte → Memory
  | [] => []
  | v :: vs => Memory.cons a v (Memory.ofImageFrom (a + 1) vs)

/-- RAM as reset seeds it from the program image (R29, R113). -/
def Memory.ofImage (image : List Byte) : Memory := Memory.ofImageFrom 0 image

/-- `ByteOf(w) = 2 · w` (R34). -/
def byteOf (w : Word) : ByteOffset := BitVec.ofNat 17 (2 * w.toNat)

/-! ### Reading and updating the state -/

/-- `x[r]` (R10). -/
def State.getReg (s : State) (r : RegIdx) : Word := s.regs[r]

/-- `x[r] <- v` (R10). No register is hard-wired (R15). -/
def State.setReg (s : State) (r : RegIdx) (v : Word) : State := { s with regs := s.regs.set r v }

/-- `pc <- t` (R10). -/
def State.setPc (s : State) (t : ByteOffset) : State := { s with pc := t }

def State.setRam (s : State) (m : Memory) : State := { s with ram := m }

def State.setStack (s : State) (st : List Slot) : State := { s with stack := st }

def State.setBufLen (s : State) (n : Nat) : State := { s with bufLen := n }

def State.setHeld (s : State) (h : Bool) : State := { s with held := h }

def State.setOutQ (s : State) (q : List Byte) : State := { s with outQ := q }

def State.setInQ (s : State) (q : List Byte) : State := { s with inQ := q }

def State.setOutClosed (s : State) (b : Bool) : State := { s with outClosed := b }

def State.setInClosed (s : State) (b : Bool) : State := { s with inClosed := b }

def State.setSchedule (s : State) (t : List Turn) : State := { s with schedule := t }

/-- `SP`, the count of live stack entries (R10, R26). -/
def State.sp (s : State) : Nat := s.stack.length

/-- `S[k]` for `k` in 1..SP, where `S[1]` is the oldest (R10). -/
def State.stackEntry (s : State) (k : Nat) : Option Slot :=
  if k = 0 then Option.none else s.stack.reverse[k - 1]?

/-- `Next(n) = pc + 2 · (1 + n)` (R12), in 17 bits (log entry 11). -/
def State.nextPc (s : State) (n : Nat) : ByteOffset := s.pc + BitVec.ofNat 17 (2 * (1 + n))

/-! ### How an instruction ends -/

/-- The fault kind and the offending value of a `raise` (R12). -/
structure Trap where
  kind : FaultKind
  value : ByteOffset
deriving DecidableEq, Repr

/-- How an instruction that does not fault ends (R61): on to the next one, a jump, the halt outcome, or a wait. -/
inductive Exit where
  | next
  | jump (t : ByteOffset)
  | halt
  | wait
deriving DecidableEq, Repr

/-- What an instruction's rule gives: the state with its writes made and how it ends, or the fault it raises. -/
abbrev Effect := Except Trap (State × Exit)

/-- Taking a fault, `raise K(v)`: the one place that enters FAULTED (R98). -/
def State.raise (s : State) (t : Trap) : State :=
  { s with status := .faulted, faultKind := t.kind, faultIp := s.pc, faultValue := t.value }

/-- `Halt()` (R12, R21). -/
def State.halt (s : State) : State := { s with pc := haltSentinel, status := .halted }

/-- The end of an instruction with `n` operands started in `s` (R61, R98). A fault leaves everything but the record as it
was in `s` (R98). A waiting instruction has done nothing but begin its step (R89, R90, R39; log entry 7). -/
def complete (n : Nat) (s : State) : Effect → StepResult
  | .error t => .next (s.raise t)
  | .ok (s', .next) => .next (s'.setPc (s.nextPc n))
  | .ok (s', .jump t) => .next (s'.setPc t)
  | .ok (s', .halt) => .next s'.halt
  | .ok (_, .wait) => .next (s.setHeld true)

/-- A stored 16-bit value on its way to a register: above 32767 it raises `WordOutOfRange` (R67, R86, D11). -/
def wordOfSlot (v : Slot) : Except Trap Word :=
  if 32767 < v.toNat then .error ⟨.wordOutOfRange, v.setWidth 17⟩ else .ok (v.setWidth 15)

/-! ### The call stack and its resize controller -/

/-- `Push(v)` (R35). -/
def State.pushEntry (s : State) (v : Slot) : Except Trap State :=
  if s.sp = s.config.stackDepthMax then .error ⟨.stackOverflow, v.setWidth 17⟩
  else .ok (s.setStack (v :: s.stack))

/-- The stack buffer length after the check with `sp` live entries and length `len` (R38). -/
def resizedLen (sp len : Nat) : Nat :=
  if len ≤ 2 * sp then 2 * len
  else if 4 * sp < len ∧ stackFloor < len then len / 2
  else len

/-- `ResizeCheck()`, transparent to everything but `L` (R38, R40). -/
def State.resizeCheck (s : State) : State := s.setBufLen (resizedLen s.sp s.bufLen)

/-- The start of a step: the resize check, which a held step has run already (R39). -/
def State.beginStep (s : State) : State :=
  if s.held then s.setHeld false else s.resizeCheck

/-! ### The channels, engine side -/

/-- Whether a channel of a capacity has room beside the bytes it holds (R89, R105, R106). -/
def hasRoom (cap : Option Nat) (q : List Byte) : Bool :=
  match cap with
  | Option.none => true
  | some n => decide (q.length < n)

/-- `OutByte(b)` (R89): the state with the byte accepted, `none` while it waits, a fault on a closed channel. Closure wins
over room. -/
def State.outByte (s : State) (b : Byte) : Except Trap (Option State) :=
  if s.outClosed then .error ⟨.ioChannelClosed, b.setWidth 17⟩
  else if hasRoom s.config.outCap s.outQ then .ok (some (s.setOutQ (s.outQ ++ [b])))
  else .ok Option.none

/-- `InByte()` (R90): the head byte and the state without it, `none` while it waits, a fault on a closed and empty
channel. Bytes already there are delivered after closure (log entry 6). -/
def State.inByte (s : State) : Except Trap (Option (Byte × State)) :=
  match s.inQ with
  | h :: q => .ok (some (h, s.setInQ q))
  | [] => if s.inClosed then .error ⟨.ioChannelClosed, 0⟩ else .ok Option.none

/-! ### Reset, construction and the host's acts -/

/-- `Reset()` (R113): channels and parameters stay; a waiting instruction is abandoned (R114). -/
def State.applyReset (s : State) : State :=
  { s with
    regs := Vector.replicate 8 0
    pc := 0
    status := .running
    faultKind := .none
    faultIp := 0
    faultValue := 0
    stack := []
    bufLen := stackFloor
    ram := Memory.ofImage s.config.image
    held := false }

/-- Construction with parameters the spec allows (R115, R117); an image over 65536 bytes is refused at load (D18). -/
def State.construct (c : Config) : Option State :=
  if c.wf then some { State.reset with config := c, ram := Memory.ofImage c.image } else Option.none

/-- One act of the host between two steps (R106). The acts R106 does not allow are refused by name. -/
def hostAct (a : HostAction) (s : State) : StepResult :=
  match a with
  | .reset => .next s.applyReset
  | .takeOutput =>
    match s.outQ with
    | [] => .refused .hostTakesFromEmptyOutput
    | _ :: q => .next (s.setOutQ q)
  | .putInput b =>
    if s.inClosed then .refused .hostPutsAfterClose
    else if hasRoom s.config.inCap s.inQ then .next (s.setInQ (s.inQ ++ [b]))
    else .refused .hostPutsPastCapacity
  | .closeOutput => .next (s.setOutClosed true)
  | .closeInput => .next (s.setInClosed true)

/-! ### The status outputs -/

/-- The code of the 2-bit status output (R23). -/
def Status.code : Status → BitVec 2
  | .running => 0
  | .halted => 1
  | .faulted => 2

/-- The code of the 4-bit `fault_kind` output (R96). -/
def FaultKind.code : FaultKind → BitVec 4
  | .none => 0
  | .invalidAddress => 1
  | .invalidValue => 2
  | .invalidRegister => 3
  | .emptyStack => 4
  | .ioChannelClosed => 5
  | .malformedOpcode => 6
  | .divideByZero => 7
  | .fetchOutOfRange => 8
  | .stackOverflow => 9
  | .wordOutOfRange => 10

end Sys2Proof.Machine
end

