-- ==== Sys2Proof/Machine/Operands.lean ====
section
/-!
DEFINITION. The operand decoder: `ResolveValue`, `ResolveRegister` and `ResolveAddress` (R54 to R57). It reads the state and
changes nothing.
-/

namespace Sys2Proof.Machine

/-- A fault that reports a raw operand (R96). -/
def operandTrap (k : FaultKind) (o : Operand) : Trap := ⟨k, o.raw.setWidth 17⟩

/-- `ResolveValue` (R54). -/
def resolveValue (s : State) (o : Operand) : Except Trap Word :=
  match o with
  | .lit w => .ok w
  | .reg r => .ok (s.getReg r)
  | .invalid _ => .error (operandTrap .invalidValue o)

/-- `ResolveRegister` (R55). -/
def resolveRegister (o : Operand) : Except Trap RegIdx :=
  match o with
  | .lit _ => .error (operandTrap .invalidRegister o)
  | .reg r => .ok r
  | .invalid _ => .error (operandTrap .invalidValue o)

/-- `ResolveAddress` (R56): a literal or a register's value as a word address, doubled. -/
def resolveAddress (s : State) (o : Operand) : Except Trap ByteOffset :=
  match o with
  | .lit w => .ok (byteOf w)
  | .reg r => .ok (byteOf (s.getReg r))
  | .invalid _ => .error (operandTrap .invalidAddress o)

/-- The shape of the instructions `op R V` that write one register: the operands resolve in order, then the write. -/
def writeUnary (s : State) (a b : Operand) (f : Word → Word) : Effect := do
  let d ← resolveRegister a
  let vb ← resolveValue s b
  .ok (s.setReg d (f vb), .next)

/-- The shape of the instructions `op R V V` that write one register: the operands resolve in order, then the
instruction's own check, which may be the fault `f` gives, then the write. -/
def writeBinary (s : State) (a b c : Operand) (f : Word → Word → Except Trap Word) : Effect := do
  let d ← resolveRegister a
  let vb ← resolveValue s b
  let vc ← resolveValue s c
  let v ← f vb vc
  .ok (s.setReg d v, .next)

end Sys2Proof.Machine
end

