-- ==== Sys2Proof/Machine/Alu.lean ====
section
/-!
DEFINITION. add, mult, mod, and, or, not (spec/43_arithmetic_logic.md): unsigned, exact, then reduced modulo 32768 (R83).
-/

namespace Sys2Proof.Machine

/-- The exact sum reduced mod 32768 (R77). -/
def aluAdd (b c : Word) : Word := BitVec.ofNat 15 ((b.toNat + c.toNat) % 32768)

/-- The exact product reduced mod 32768 (R78). -/
def aluMult (b c : Word) : Word := BitVec.ofNat 15 (b.toNat * c.toNat % 32768)

/-- The unsigned remainder; a zero divisor raises `DivideByZero(0)` (R79, D8). -/
def aluMod (b c : Word) : Except Trap Word :=
  if c = 0 then .error ⟨.divideByZero, 0⟩ else .ok (BitVec.ofNat 15 (b.toNat % c.toNat))

/-- The complement within 15 bits (R82). -/
def aluNot (b : Word) : Word := b ^^^ 0x7fff

/-- `add a, b, c` (R77). -/
def execAdd (a b c : Operand) (s : State) : StepResult :=
  complete 3 s (writeBinary s a b c fun vb vc => .ok (aluAdd vb vc))

/-- `mult a, b, c` (R78). -/
def execMult (a b c : Operand) (s : State) : StepResult :=
  complete 3 s (writeBinary s a b c fun vb vc => .ok (aluMult vb vc))

/-- `mod a, b, c` (R79). -/
def execMod (a b c : Operand) (s : State) : StepResult :=
  complete 3 s (writeBinary s a b c aluMod)

/-- `and a, b, c` (R80). -/
def execAnd (a b c : Operand) (s : State) : StepResult :=
  complete 3 s (writeBinary s a b c fun vb vc => .ok (vb &&& vc))

/-- `or a, b, c` (R81). -/
def execOr (a b c : Operand) (s : State) : StepResult :=
  complete 3 s (writeBinary s a b c fun vb vc => .ok (vb ||| vc))

/-- `not a, b` (R82). -/
def execNot (a b : Operand) (s : State) : StepResult :=
  complete 2 s (writeUnary s a b aluNot)

end Sys2Proof.Machine
end

