-- ==== Sys2Proof/Machine/Flags.lean ====
section
/-!
DEFINITION. The CORE has no flags or condition codes (R22). What other machines keep in flags is computed here: the 0 or 1
result that `eq` and `gt` write to a register, and the zero test of `jt` and `jf`.
-/

namespace Sys2Proof.Machine

/-- The result of `eq` (R68). -/
def equalResult (b c : Word) : Word := if b = c then 1 else 0

/-- The result of `gt`: unsigned and strict (R69). -/
def greaterResult (b c : Word) : Word := if c.toNat < b.toNat then 1 else 0

/-- The test of `jt` and `jf`: any non-zero value counts as true (R71, R72). -/
def isNonZero (v : Word) : Bool := decide (v ≠ 0)

/-- The end of a conditional jump (R71, R72). -/
def jumpIf (cond : Bool) (t : ByteOffset) : Exit := if cond then .jump t else .next

end Sys2Proof.Machine
end

