-- ==== Sys2Proof/Machine/Comparison.lean ====
section
/-!
DEFINITION. eq, gt (spec/41_comparison.md).
-/

namespace Sys2Proof.Machine

/-- `eq a, b, c` (R68). -/
def execEq (a b c : Operand) (s : State) : StepResult :=
  complete 3 s (writeBinary s a b c fun vb vc => .ok (equalResult vb vc))

/-- `gt a, b, c` (R69). -/
def execGt (a b c : Operand) (s : State) : StepResult :=
  complete 3 s (writeBinary s a b c fun vb vc => .ok (greaterResult vb vc))

end Sys2Proof.Machine
end

