-- ==== Sys2Proof/Machine/ControlTransfer.lean ====
section
/-!
DEFINITION. jmp, jt, jf, call, ret (spec/42_control_transfer.md).
-/

namespace Sys2Proof.Machine

/-- `jmp a` (R70). -/
def execJmp (a : Operand) (s : State) : StepResult :=
  complete 1 s do
    let t ← resolveAddress s a
    .ok (s, .jump t)

/-- `jt a, b` (R71): b is resolved even when the jump is not taken (D7). -/
def execJt (a b : Operand) (s : State) : StepResult :=
  complete 2 s do
    let v ← resolveValue s a
    let t ← resolveAddress s b
    .ok (s, jumpIf (isNonZero v) t)

/-- `jf a, b` (R72): b is resolved even when the jump is not taken (D7). -/
def execJf (a b : Operand) (s : State) : StepResult :=
  complete 2 s do
    let v ← resolveValue s a
    let t ← resolveAddress s b
    .ok (s, jumpIf (!isNonZero v) t)

/-- The word address of the instruction after a `call`, `pc div 2 + 2` (R73), in 16 bits (log entry 11). -/
def returnAddress (s : State) : Slot := BitVec.ofNat 16 (s.pc.toNat / 2 + 2)

/-- `call a` (R73): the target is read before anything is pushed. -/
def execCall (a : Operand) (s : State) : StepResult :=
  complete 1 s do
    let t ← resolveAddress s a
    let s' ← s.pushEntry (returnAddress s)
    .ok (s', .jump t)

/-- `ret` (R74): on an empty stack the halt outcome, not a fault (R100). -/
def execRet (s : State) : StepResult :=
  complete 0 s <|
    match s.stack with
    | [] => .ok (s, .halt)
    | w :: rest => .ok (s.setStack rest, .jump (BitVec.ofNat 17 (2 * w.toNat)))

end Sys2Proof.Machine
end

