-- ==== Sys2Proof/Machine/DataMovement.lean ====
section
/-!
DEFINITION. set, push, pop (spec/40_data_movement.md).
-/

namespace Sys2Proof.Machine

/-- `set a, b` (R65). -/
def execSet (a b : Operand) (s : State) : StepResult :=
  complete 2 s (writeUnary s a b fun v => v)

/-- `push a` (R66). -/
def execPush (a : Operand) (s : State) : StepResult :=
  complete 1 s do
    let v ← resolveValue s a
    let s' ← s.pushEntry (v.setWidth 16)
    .ok (s', .next)

/-- `pop a` (R67): the operand, then the empty stack, then the entry's range, then `Pop()` (R36) and the write. -/
def execPop (a : Operand) (s : State) : StepResult :=
  complete 1 s do
    let d ← resolveRegister a
    match s.stack with
    | [] => .error ⟨.emptyStack, 0⟩
    | v :: rest =>
      let w ← wordOfSlot v
      .ok ((s.setStack rest).setReg d w, .next)

end Sys2Proof.Machine
end

