-- ==== Sys2Proof/Machine/MemoryAccess.lean ====
section
/-!
DEFINITION. rmem, wmem (spec/44_memory_access.md).
-/

namespace Sys2Proof.Machine

/-- `rmem a, b` (R86): a stored word above 32767 raises `WordOutOfRange` (D11). -/
def execRmem (a b : Operand) (s : State) : StepResult :=
  complete 2 s do
    let d ← resolveRegister a
    let p ← resolveAddress s b
    let w ← wordOfSlot (s.ram.read2 p.toNat)
    .ok (s.setReg d w, .next)

/-- `wmem a, b` (R87). -/
def execWmem (a b : Operand) (s : State) : StepResult :=
  complete 2 s do
    let p ← resolveAddress s a
    let v ← resolveValue s b
    .ok (s.setRam (s.ram.write2 p.toNat (v.setWidth 16)), .next)

end Sys2Proof.Machine
end

