-- ==== Sys2Proof/Machine/SystemIo.lean ====
section
/-!
DEFINITION. halt, out, in, noop (spec/45_system_io.md).
-/

namespace Sys2Proof.Machine

/-- `halt` (R91). -/
def execHalt (s : State) : StepResult :=
  complete 0 s (.ok (s, .halt))

/-- `out a` (R92): the low byte, once the channel takes it. -/
def execOut (a : Operand) (s : State) : StepResult :=
  complete 1 s do
    let v ← resolveValue s a
    match ← s.outByte (v.setWidth 8) with
    | Option.none => .ok (s, .wait)
    | some s' => .ok (s', .next)

/-- `in a` (R93): the destination is checked before the wait; the byte is zero-extended. -/
def execIn (a : Operand) (s : State) : StepResult :=
  complete 1 s do
    let d ← resolveRegister a
    match ← s.inByte with
    | Option.none => .ok (s, .wait)
    | some (h, s') => .ok (s'.setReg d (h.setWidth 15), .next)

/-- `noop` (R94). -/
def execNoop (s : State) : StepResult :=
  complete 0 s (.ok (s, .next))

end Sys2Proof.Machine
end

