-- ==== Sys2Proof/Machine/Engine.lean ====
section
/-!
DEFINITION. The fetch-decode-dispatch step of the engine (R61, R62, R99), the turns of engine and host (R106), the ports
(R108), and placing an instruction's bytes where the engine fetches.
-/

namespace Sys2Proof.Machine

/-- The bytes the decoder sees: those from the pc to the end of RAM, at most the longest instruction's (R50). -/
def State.fetchBytes (s : State) : List Byte :=
  s.ram.bytes s.pc.toNat (min maxInstrBytes (ramBytes - s.pc.toNat))

/-- The fetch part of `Step()`: the first four checks of R99 in order, and the instruction (R61). -/
def State.fetch (s : State) : Except Trap Instr :=
  if s.pc.toNat % 2 = 1 then .error ⟨.malformedOpcode, s.pc⟩
  else if lastSlot < s.pc.toNat then .error ⟨.fetchOutOfRange, s.pc⟩
  else
    match decode s.fetchBytes with
    | .ok (i, _) => .ok i
    | .error (.illegalOpcode op) => .error ⟨.malformedOpcode, op.setWidth 17⟩
    | .error (.truncated n) => .error ⟨.fetchOutOfRange, s.pc + BitVec.ofNat 17 (2 * n)⟩

/-- Fetch and execute, after the resize check (R61). -/
def runInstruction (s : State) : StepResult :=
  match s.fetch with
  | .error t => .next (s.raise t)
  | .ok i => exec i s

/-- `Step()` (R61): a no-op in HALTED and FAULTED. -/
def engineStep (s : State) : StepResult :=
  match s.status with
  | .running => runInstruction s.beginStep
  | .halted => .next s
  | .faulted => .next s

/-- One step of the whole: the engine's, or the host's act if the schedule gives it the turn (R106). -/
def takeTurn (s : State) : StepResult :=
  match s.schedule with
  | [] => engineStep s
  | .engine :: rest => engineStep (s.setSchedule rest)
  | .host a :: rest => hostAct a (s.setSchedule rest)

/-- The signals of the port list that carry state (R108). A valid flag and its data are one Option. `rst` and `img_*` are
the host's reset act and `config.image` (log entry 14). -/
structure Ports where
  status : BitVec 2
  faultKind : BitVec 4
  faultIp : ByteOffset
  faultValue : ByteOffset
  outOffer : Option Byte
  outReady : Bool
  outClosed : Bool
  inOffer : Option Byte
  inReady : Bool
  inClosed : Bool
deriving DecidableEq, Repr

/-- The byte that the `out` at pc offers to the output channel: `out_valid` with `out_data` (R92, R108). A closed channel
is offered nothing: there the `out` faults, room or not (R89), so a byte offered while `out_ready` is 1 is accepted. -/
def State.outOffer (s : State) : Option Byte :=
  if s.outClosed then Option.none
  else
    match s.status, s.fetch with
    | .running, .ok (.out a) =>
      match resolveValue s a with
      | .ok v => some (v.setWidth 8)
      | .error _ => Option.none
    | _, _ => Option.none

/-- Whether the instruction at pc is an `in` that would take a byte: `in_ready` (R93, R108). -/
def State.inReady (s : State) : Bool :=
  match s.status, s.fetch with
  | .running, .ok (.inp a) =>
    match resolveRegister a with
    | .ok _ => true
    | .error _ => false
  | _, _ => false

/-- What the host sees between steps (R107, R108). -/
def State.ports (s : State) : Ports where
  status := s.status.code
  faultKind := s.faultKind.code
  faultIp := s.faultIp
  faultValue := s.faultValue
  outOffer := s.outOffer
  outReady := hasRoom s.config.outCap s.outQ
  outClosed := s.outClosed
  inOffer := s.inQ.head?
  inReady := s.inReady
  inClosed := s.inClosed

/-- Where an instruction of any length can be placed for the next fetch: the pc if it is even and eight bytes from it lie
in RAM, and otherwise the reset pc. -/
def State.placingPc (s : State) : ByteOffset :=
  if s.pc.toNat % 2 = 0 ∧ s.pc.toNat + maxInstrBytes ≤ ramBytes then s.pc else 0

/-- `s` with bytes stored where its next step fetches them: the engine is RUNNING, has the turn, and holds no earlier
step. -/
def State.placeBytes (s : State) (bytes : List Byte) : State :=
  { s with
    pc := s.placingPc
    status := .running
    ram := s.ram.writeBytes s.placingPc.toNat bytes
    held := false
    schedule := [] }

end Sys2Proof.Machine
end

