-- ==== Sys2Proof/Machine/Step.lean ====
section
/-!
DEFINITION. The step of the machine and the placing of an instruction under test.
-/

namespace Sys2Proof.Machine

/-- One step (R61, R106). -/
def step (s : State) : Host.Outcome State Fault Refusal := takeTurn s

/-- `s` with the instruction whose bits are `w` (numbered as spec/opcode_table.json numbers them) stored where `step`
fetches; log entry 3 says how a program comes to run. -/
def State.withFetchWord (s : State) (nbits w : Nat) : State := s.placeBytes (tableBytes nbits w)

end Sys2Proof.Machine
end

