-- ==== Sys2Proof/Machine/Assembler.lean ====
section
/-!
DEFINITION. The assembler's notation (R64). A program is a list of statements, each with the labels that mark its first
slot; how statements and labels are laid out on lines of text is not given by the rule (log entry 12).
-/

namespace Sys2Proof.Machine

/-- An operand as written: `r0` to `r7`, a literal, or a label. -/
inductive AsmOperand where
  | reg (r : RegIdx)
  | lit (w : Word)
  | label (name : String)
deriving DecidableEq, Repr

/-- A statement: a mnemonic with its operands, or `.word v`. -/
inductive AsmStatement where
  | instr (mnemonic : String) (operands : List AsmOperand)
  | word (v : Slot)
deriving DecidableEq, Repr

/-- A statement and the labels that mark its first slot. -/
structure AsmLine where
  labels : List String
  statement : AsmStatement
deriving DecidableEq, Repr

/-! ### Reading one statement -/

/-- The value of a digit in a base up to 16. -/
def digitOf (base : Nat) (c : Char) : Option Nat :=
  let v :=
    if '0' ≤ c ∧ c ≤ '9' then c.toNat - '0'.toNat
    else if 'a' ≤ c ∧ c ≤ 'f' then c.toNat - 'a'.toNat + 10
    else if 'A' ≤ c ∧ c ≤ 'F' then c.toNat - 'A'.toNat + 10
    else base
  if v < base then some v else none

/-- Digits read after the value `acc`. -/
def digitsFrom (base acc : Nat) : List Char → Option Nat
  | [] => some acc
  | c :: cs => (digitOf base c).bind fun d => digitsFrom base (base * acc + d) cs

/-- A number: decimal, or `0x` with hexadecimal digits. -/
def readNumber : List Char → Option Nat
  | [] => none
  | '0' :: 'x' :: c :: cs => digitsFrom 16 0 (c :: cs)
  | c :: cs => digitsFrom 10 0 (c :: cs)

/-- The characters after leading spaces. -/
def dropSpaces : List Char → List Char
  | ' ' :: cs => dropSpaces cs
  | cs => cs

/-- The characters without leading and trailing spaces. -/
def trimSpaces (cs : List Char) : List Char := (dropSpaces (dropSpaces cs).reverse).reverse

/-- The parts of a text between the occurrences of a character, at least one. -/
def splitAt (sep : Char) : List Char → List (List Char)
  | [] => [[]]
  | c :: cs =>
    match splitAt sep cs with
    | [] => [[c]]
    | p :: ps => if c = sep then [] :: p :: ps else (c :: p) :: ps

/-- A register name `r0` to `r7`. -/
def readRegister : List Char → Option RegIdx
  | ['r', c] => (digitOf 8 c).map (Fin.ofNat 8)
  | _ => none

/-- Whether a text can name a label: it starts with a letter or `_` and goes on with letters, digits and `_`. -/
def isName : List Char → Bool
  | [] => false
  | c :: cs => (c.isAlpha || c == '_') && cs.all fun d => d.isAlphanum || d == '_'

/-- One operand as written. A literal is at most 32767: `.word` alone writes other raw slots. -/
def readOperand (cs : List Char) : Option AsmOperand :=
  match readRegister cs, readNumber cs with
  | some r, _ => some (.reg r)
  | none, some v => if v ≤ 32767 then some (.lit (BitVec.ofNat 15 v)) else none
  | none, none => if isName cs then some (.label (String.ofList cs)) else none

/-- All operands, in order. -/
def readOperands : List (List Char) → Option (List AsmOperand)
  | [] => some []
  | cs :: rest => (readOperand (trimSpaces cs)).bind fun o => (readOperands rest).map (o :: ·)

/-- The text up to the first space, and the text after it. -/
def firstWord : List Char → List Char × List Char
  | [] => ([], [])
  | c :: cs => if c = ' ' then ([], cs) else (c :: (firstWord cs).1, (firstWord cs).2)

/-- One statement: a mnemonic, then its operands separated by commas, with optional spaces. -/
def readStatement (text : List Char) : Option AsmStatement :=
  let (word, rest) := firstWord (trimSpaces text)
  let args := trimSpaces rest
  if word = ['.', 'w', 'o', 'r', 'd'] then
    (readNumber args).bind fun v => if v ≤ 65535 then some (.word (BitVec.ofNat 16 v)) else none
  else if args = [] then some (.instr (String.ofList word) [])
  else (readOperands (splitAt ',' args)).map fun ops => .instr (String.ofList word) ops

/-! ### Assembling -/

/-- The instruction a lower-case mnemonic of R58 names, given its operands in slot order. -/
def instrOfMnemonic (mnemonic : String) (operands : List Operand) : Option Instr :=
  match mnemonic, operands with
  | "halt", [] => some .halt
  | "set", [a, b] => some (.set a b)
  | "push", [a] => some (.push a)
  | "pop", [a] => some (.pop a)
  | "eq", [a, b, c] => some (.eq a b c)
  | "gt", [a, b, c] => some (.gt a b c)
  | "jmp", [a] => some (.jmp a)
  | "jt", [a, b] => some (.jt a b)
  | "jf", [a, b] => some (.jf a b)
  | "add", [a, b, c] => some (.add a b c)
  | "mult", [a, b, c] => some (.mult a b c)
  | "mod", [a, b, c] => some (.mod a b c)
  | "and", [a, b, c] => some (.and a b c)
  | "or", [a, b, c] => some (.or a b c)
  | "not", [a, b] => some (.not a b)
  | "rmem", [a, b] => some (.rmem a b)
  | "wmem", [a, b] => some (.wmem a b)
  | "call", [a] => some (.call a)
  | "ret", [] => some .ret
  | "out", [a] => some (.out a)
  | "in", [a] => some (.inp a)
  | "noop", [] => some .noop
  | _, _ => none

/-- The number of slots a statement fills. -/
def AsmStatement.slots : AsmStatement → Nat
  | .instr _ operands => 1 + operands.length
  | .word _ => 1

/-- The word address of a label in a program whose first slot is at word `at_`: the slot it marks (R64). A label that
marks more than one slot stands for the first; R64 is silent on it (DESIGN CHOICE, log entry 12). -/
def labelAddress (name : String) (at_ : Nat) : List AsmLine → Option Nat
  | [] => none
  | l :: ls =>
    if name ∈ l.labels then some at_ else labelAddress name (at_ + l.statement.slots) ls

/-- An operand's raw class: a register, a literal, or the word address of a label. A label may stand in a slot of any kind
and is a literal there; R64 speaks of labels for address operands and is silent on other slots (DESIGN CHOICE, log
entry 12). -/
def assembleOperand (program : List AsmLine) : AsmOperand → Option Operand
  | .reg r => some (.reg r)
  | .lit w => some (.lit w)
  | .label name =>
    (labelAddress name 0 program).bind fun a =>
      if a ≤ 32767 then some (.lit (BitVec.ofNat 15 a)) else none

/-- All operands of a statement, in slot order. -/
def assembleOperands (program : List AsmLine) : List AsmOperand → Option (List Operand)
  | [] => some []
  | o :: os =>
    (assembleOperand program o).bind fun x => (assembleOperands program os).map (x :: ·)

/-- The bytes of one statement; an instruction's opcode slot gets a high byte of 0. -/
def assembleStatement (program : List AsmLine) : AsmStatement → Option (List Byte)
  | .instr mnemonic operands =>
    (assembleOperands program operands).bind fun ops => (instrOfMnemonic mnemonic ops).map encode
  | .word v => some (slotBytes v)

/-- The bytes of the lines in order, with labels looked up in the whole program. -/
def assembleLines (program : List AsmLine) : List AsmLine → Option (List Byte)
  | [] => some []
  | l :: ls =>
    (assembleStatement program l.statement).bind fun bs => (assembleLines program ls).map (bs ++ ·)

/-- The program image of a program placed at word 0. -/
def assemble (program : List AsmLine) : Option (List Byte) := assembleLines program program

end Sys2Proof.Machine
end

