-- ==== Sys2Proof/Safety.lean ====
section
/-!
DEFINITION. What a run and a good state of the CORE are: the invariant that the rules claim of every state, the states a run
reaches, and the runs that stay clear of FAULTED.
-/

namespace Sys2Proof.Machine

/-- What the spec says of every state between two steps. -/
structure State.Inv (s : State) : Prop where
  /-- RAM is in its canonical form. -/
  ramCanonical : s.ram.wf = true
  /-- The parameters are ones the spec allows (R7, R29, R105, D12). -/
  configAllowed : s.config.wf = true
  /-- Outside HALTED the pc is even and at most 65536 (R19, R20). -/
  pcEven : s.status ≠ .halted → s.pc.toNat % 2 = 0 ∧ s.pc.toNat ≤ 65536
  /-- In HALTED the pc is the sentinel (R21). -/
  pcSentinel : s.status = .halted → s.pc = haltSentinel
  /-- Outside FAULTED the record is empty (R24, R100). -/
  recordEmpty : s.status ≠ .faulted → s.faultKind = .none ∧ s.faultIp = 0 ∧ s.faultValue = 0
  /-- In FAULTED it holds a kind, and the pc is still that of the faulting instruction (R98). -/
  recordSet : s.status = .faulted → s.faultKind ≠ .none ∧ s.faultIp = s.pc
  /-- SP lies in 0..STACK_DEPTH_MAX (R26). -/
  stackDepth : s.sp ≤ s.config.stackDepthMax
  /-- A stack entry is a Word or the return address 32768 (R66, R67, R73). -/
  stackEntries : ∀ v ∈ s.stack, v.toNat ≤ 32768
  /-- L is a power of two, at least 256 (R27, R40). -/
  bufLenPower : ∃ k, 8 ≤ k ∧ s.bufLen = 2 ^ k
  /-- L never passes 65536 when STACK_DEPTH_MAX is at most 32767 (R27, R40). -/
  bufLenBound : s.config.stackDepthMax ≤ 32767 → s.bufLen ≤ 65536
  /-- "stack pointer ≤ buffer length − 1" (R37, R40). -/
  stackFits : s.sp ≤ s.bufLen - 1
  /-- Only a RUNNING engine waits (R112), and its resize check has left room for a push (R39, R40). -/
  heldRunning : s.held = true → s.status = .running ∧ s.sp + 1 ≤ s.bufLen - 1
  /-- A bounded output channel holds at most its capacity (R89, R105). -/
  outQBound : ∀ n, s.config.outCap = some n → s.outQ.length ≤ n
  /-- A bounded input channel holds at most its capacity (R105, R106). -/
  inQBound : ∀ n, s.config.inCap = some n → s.inQ.length ≤ n

/-- `s` steps to `s'`. -/
def StepsTo (s s' : State) : Prop := step s = .next s'

/-- Some number of steps lead from `s` to `s'`. -/
def Reaches (s s' : State) : Prop := Relation.ReflTransGen StepsTo s s'

/-- `n` steps of the engine alone, as when the host does nothing. -/
def engineRun : Nat → State → Option State
  | 0, s => some s
  | n + 1, s =>
    match engineStep s with
    | .next s' => engineRun n s'
    | .fault _ => none
    | .refused _ => none

/-- A safe state: the engine has not faulted. A run is safe when every state it reaches is. -/
def State.safe (s : State) : Prop := s.status ≠ .faulted

/-- Every run from `s` is safe. -/
def SafeFrom (s : State) : Prop := ∀ s', Reaches s s' → s'.safe

end Sys2Proof.Machine
end

