-- ==== Sys2Proof/Certificates/Slice0/Obligations.lean ====
section
/-!
DEFINITION. The statements for the provers, with the words of the spec's rules that they use. The definitions under
`Sys2Proof.Spec` restate the notation of spec/00_scope.md and spec/30_encoding.md without the model's own operations.
-/

namespace Sys2Proof.Spec

open Sys2Proof.Machine

/-- A raw operand's number (R53). -/
def rawNumber : Operand → Nat
  | .lit w => w.toNat
  | .reg r => 32768 + r.val
  | .invalid raw => raw.toNat

/-- A 16-bit number's two bytes, low byte first (R33). -/
def twoBytes (v : Nat) : List Byte := [BitVec.ofNat 8 (v % 256), BitVec.ofNat 8 (v / 256)]

/-- The instruction's slots are its opcode and its raw operands, in RAM order (R51). -/
def EncodedAs (i : Instr) (op : Nat) (operands : List Operand) : Prop :=
  encode i = twoBytes op ++ operands.flatMap fun o => twoBytes (rawNumber o)

/-- Operand `o` in a `V` or `A` slot resolves to the Word `v`: a literal, or a register that holds it (R54, R56). -/
def Reads (s : State) (o : Operand) (v : Word) : Prop :=
  o = .lit v ∨ ∃ r, o = .reg r ∧ s.getReg r = v

/-- The fault an operand raises in a slot of a kind, if any (R59). -/
def operandFault : OperandKind → Operand → Option FaultKind
  | .register, .lit _ => some .invalidRegister
  | .register, .reg _ => none
  | .register, .invalid _ => some .invalidValue
  | .value, .lit _ => none
  | .value, .reg _ => none
  | .value, .invalid _ => some .invalidValue
  | .address, .lit _ => none
  | .address, .reg _ => none
  | .address, .invalid _ => some .invalidAddress

/-- The first operand in slot order that faults, with its raw number (R62). -/
def firstOperandFault : List (OperandKind × Operand) → Option (FaultKind × Nat)
  | [] => none
  | (k, o) :: rest =>
    match operandFault k o with
    | some f => some (f, rawNumber o)
    | none => firstOperandFault rest

/-- The state after `raise K(v)` (R98): the record, the status, nothing else. -/
def faulted (s : State) (k : FaultKind) (v : Nat) : State :=
  { s with status := .faulted, faultKind := k, faultIp := s.pc, faultValue := BitVec.ofNat 17 v }

/-- Whatever the state, an instruction whose operands have a first fault raises it and does nothing else (R62, R98). -/
def RaisesOperandFaults (i : Instr) (operands : List (OperandKind × Operand)) : Prop :=
  ∀ (s : State) (k : FaultKind) (v : Nat), firstOperandFault operands = some (k, v) →
    exec i s = .next (faulted s k v)

/-- `Next(n)`, the address `pc + 2 · (1 + n)` (R12). -/
def next (s : State) (n : Nat) : ByteOffset := BitVec.ofNat 17 (s.pc.toNat + 2 * (1 + n))

/-- The state after an instruction with `n` operands that writes `v` to register `d` and goes on. -/
def written (s : State) (d : RegIdx) (v : Word) (n : Nat) : State :=
  { s with regs := s.regs.set d v, pc := next s n }

/-- An instruction `R V V` writes `f` of its two values to its register and goes on (R58, R62). -/
def WritesOfTwoValues (mk : Operand → Operand → Operand → Instr) (f : Nat → Nat → Nat) : Prop :=
  ∀ (s : State) (d : RegIdx) (b c : Operand) (vb vc : Word), Reads s b vb → Reads s c vc →
    exec (mk (.reg d) b c) s = .next (written s d (BitVec.ofNat 15 (f vb.toNat vc.toNat)) 3)

/-- The state in which a step's instruction runs: the resize check has been made, unless the step was held before (R38,
R39). -/
def stepStart (s : State) (schedule : List Turn) : State :=
  { s with
    bufLen :=
      if s.held then s.bufLen
      else if 2 * s.stack.length ≥ s.bufLen then 2 * s.bufLen
      else if 4 * s.stack.length < s.bufLen ∧ s.bufLen > 256 then s.bufLen / 2
      else s.bufLen
    held := false
    schedule := schedule }

/-- The turn is the engine's, and `rest` is the schedule after it. -/
def EngineTurn (s : State) (rest : List Turn) : Prop :=
  s.schedule = .engine :: rest ∨ s.schedule = [] ∧ rest = []

/-- n(op), the operand counts of opcodes 0..21 (R58). -/
def operandCounts : List Nat := [0, 2, 1, 1, 3, 3, 1, 2, 2, 3, 3, 3, 3, 3, 2, 2, 2, 1, 0, 1, 1, 0]

/-- Status and fault record are as before, or a fault was taken and nothing else happened (R98). -/
def RecordFrame (s t : State) : Prop :=
  (t.status = s.status ∧ t.faultKind = s.faultKind ∧ t.faultIp = s.faultIp ∧ t.faultValue = s.faultValue) ∨
  ∃ k v, k ≠ FaultKind.none ∧ t = faulted s k v

/-- The channels are as before (R105). -/
def ChannelFrame (s t : State) : Prop :=
  t.outQ = s.outQ ∧ t.outClosed = s.outClosed ∧ t.inQ = s.inQ ∧ t.inClosed = s.inClosed

/-- The buffer length, the parameters and the host's plan are as before. -/
def HiddenFrame (s t : State) : Prop :=
  t.bufLen = s.bufLen ∧ t.config = s.config ∧ t.schedule = s.schedule

/-- Every register but `d` is as before. -/
def RegistersFrameExcept (s t : State) (d : Option RegIdx) : Prop :=
  ∀ r, d ≠ some r → t.getReg r = s.getReg r

/-- Every byte of RAM reads as before. -/
def RamFrame (s t : State) : Prop := ∀ j, t.ram.read j = s.ram.read j

/-- The register operand a names, for the 12 instructions that write one (R16). -/
def destination : Instr → Option RegIdx
  | .set (.reg d) _ => some d
  | .pop (.reg d) => some d
  | .eq (.reg d) _ _ => some d
  | .gt (.reg d) _ _ => some d
  | .add (.reg d) _ _ => some d
  | .mult (.reg d) _ _ => some d
  | .mod (.reg d) _ _ => some d
  | .and (.reg d) _ _ => some d
  | .or (.reg d) _ _ => some d
  | .not (.reg d) _ => some d
  | .rmem (.reg d) _ => some d
  | .inp (.reg d) => some d
  | _ => none

/-- The instructions run one after another, as long as none of them stops the run. -/
def execAll : List Instr → State → Option State
  | [], s => some s
  | i :: is, s =>
    match exec i s with
    | .next t => execAll is t
    | .fault _ => none
    | .refused _ => none

end Sys2Proof.Spec

open Sys2Proof Sys2Proof.Machine Sys2Proof.Spec

/-! ### Encoding -/

/-- R50, R51, R53, R58, R60, R64: decoding an instruction's encoding gives it back, with the bytes after it. -/
def Obligations.DecodeAfterEncodeReturnsInstruction : Prop :=
  ∀ (i : Instr) (rest : List Byte), i.wf = true → decode (encode i ++ rest) = .ok (i, rest)

/-- R52, R53, R63: what decodes is a well-formed instruction, and its bytes are its encoding but for the opcode slot's
high byte. -/
def Obligations.DecodedBytesAreAnEncoding : Prop :=
  ∀ (bytes rest : List Byte) (i : Instr), decode bytes = .ok (i, rest) →
    i.wf = true ∧ ∃ op hi tail, bytes = op :: hi :: (tail ++ rest) ∧ encode i = op :: 0 :: tail

/-- Words written out from the spec's encodings, one of each format and family (spec/40 to spec/45, Example lines). -/
def Obligations.SampleEncodingsDecode : Prop :=
  decode [0x01, 0x00, 0x00, 0x80, 0x05, 0x00] = .ok (.set (.reg 0) (.lit 5), []) ∧
  decode [0x03, 0x00, 0x02, 0x80] = .ok (.pop (.reg 2), []) ∧
  decode [0x04, 0x00, 0x02, 0x80, 0x03, 0x00, 0x03, 0x00] = .ok (.eq (.reg 2) (.lit 3) (.lit 3), []) ∧
  decode [0x07, 0x00, 0x01, 0x80, 0x06, 0x00] = .ok (.jt (.reg 1) (.lit 6), []) ∧
  decode [0x09, 0x00, 0x02, 0x80, 0x00, 0x80, 0x01, 0x80] = .ok (.add (.reg 2) (.reg 0) (.reg 1), []) ∧
  decode [0x10, 0x00, 0x64, 0x00, 0x39, 0x30] = .ok (.wmem (.lit 100) (.lit 12345), []) ∧
  decode [0x13, 0x00, 0x03, 0x80] = .ok (.out (.reg 3), []) ∧
  decode [0x12, 0x00] = .ok (.ret, [])

/-- R52: "Decode does not examine it." -/
def Obligations.OpcodeHighByteIsIgnored : Prop :=
  ∀ (op h h' : Byte) (bytes : List Byte), decode (op :: h :: bytes) = decode (op :: h' :: bytes)

/-- R59, first part: exactly the opcode bytes 22..255 are refused as illegal. -/
def Obligations.IllegalOpcodesAreTwentyTwoAndAbove : Prop :=
  ∀ (op h : Byte) (bytes : List Byte),
    (22 ≤ op.toNat → decode (op :: h :: bytes) = .error (.illegalOpcode op)) ∧
    (op.toNat ≤ 21 → ∀ x, decode (op :: h :: bytes) ≠ .error (.illegalOpcode x))

/-- R60: two instructions with the same opcode byte take the same number of bytes, `2 · (1 + n(op))`. -/
def Obligations.LengthIsAFunctionOfTheOpcode : Prop :=
  ∀ (op : Byte) (bytes rest : List Byte) (i : Instr), decode (op :: bytes) = .ok (i, rest) →
    ∃ n, operandCounts[op.toNat]? = some n ∧ 1 + bytes.length = 2 * (1 + n) + rest.length ∧ i.operandCount = n

/-- R53: the three classes of a raw operand. -/
def Obligations.OperandClassFollowsRawValue : Prop :=
  ∀ w : Slot,
    (w.toNat ≤ 32767 → ∃ v : Word, classify w = .lit v ∧ v.toNat = w.toNat) ∧
    (32768 ≤ w.toNat → w.toNat ≤ 32775 → ∃ r : RegIdx, classify w = .reg r ∧ r.val = w.toNat - 32768) ∧
    (32776 ≤ w.toNat → classify w = .invalid w)

/-- R54, R55, R56: the three resolutions of a raw operand. -/
def Obligations.OperandsResolveByKind : Prop :=
  ∀ (s : State) (w : Slot),
    (w.toNat ≤ 32767 →
      resolveValue s (classify w) = .ok (w.setWidth 15) ∧
      resolveRegister (classify w) = .error ⟨.invalidRegister, w.setWidth 17⟩ ∧
      resolveAddress s (classify w) = .ok (BitVec.ofNat 17 (2 * w.toNat))) ∧
    (∀ r : RegIdx, w.toNat = 32768 + r.val →
      resolveValue s (classify w) = .ok (s.getReg r) ∧
      resolveRegister (classify w) = .ok r ∧
      resolveAddress s (classify w) = .ok (BitVec.ofNat 17 (2 * (s.getReg r).toNat))) ∧
    (32776 ≤ w.toNat →
      resolveValue s (classify w) = .error ⟨.invalidValue, w.setWidth 17⟩ ∧
      resolveRegister (classify w) = .error ⟨.invalidValue, w.setWidth 17⟩ ∧
      resolveAddress s (classify w) = .error ⟨.invalidAddress, w.setWidth 17⟩)

/-- R64: a statement whose mnemonic and operands name an instruction without labels assembles to that instruction's
encoding, wherever it stands; `.word` places its slot. -/
def Obligations.AssembledStatementIsEncoding : Prop :=
  (∀ (program : List AsmLine) (m : String) (operands : List AsmOperand) (resolved : List Operand) (i : Instr),
    operands.map (fun o => match o with
      | .reg r => some (Operand.reg r)
      | .lit w => some (Operand.lit w)
      | .label _ => none) = resolved.map some →
    instrOfMnemonic m resolved = some i →
    i.operands.map (·.2) = resolved ∧ i.wf = true ∧
      assembleStatement program (.instr m operands) = some (encode i)) ∧
  (∀ (program : List AsmLine) (v : Slot), assembleStatement program (.word v) = some (twoBytes v.toNat))

/-! ### The step -/

/-- R61: when the bytes at an even pc inside RAM are exactly those of an instruction, the engine's step is that
instruction's, run after the resize check of R38 and R39. A held step makes no second check (R39); how a
held step shows in State is the model's (log entry 7). -/
def Obligations.StepRunsDecodedInstruction : Prop :=
  ∀ (s : State) (rest : List Turn) (i : Instr) (n : Nat), EngineTurn s rest → s.status = .running →
    s.pc.toNat % 2 = 0 → s.pc.toNat + n ≤ 65536 → decode (s.ram.bytes s.pc.toNat n) = .ok (i, []) →
    step s = exec i (stepStart s rest)

/-- R61, R99 (the first four checks): the fetch faults of a step, in order, and otherwise the instruction that the opcode
byte and the operand slots spell. -/
def Obligations.FetchChecksInOrder : Prop :=
  ∀ (s : State) (rest : List Turn), EngineTurn s rest → s.status = .running →
    (s.pc.toNat % 2 = 1 → step s = .next (faulted (stepStart s rest) .malformedOpcode s.pc.toNat)) ∧
    (s.pc.toNat % 2 = 0 → 65534 < s.pc.toNat →
      step s = .next (faulted (stepStart s rest) .fetchOutOfRange s.pc.toNat)) ∧
    (s.pc.toNat % 2 = 0 → s.pc.toNat ≤ 65534 → 21 < (s.ram.read s.pc.toNat).toNat →
      step s = .next (faulted (stepStart s rest) .malformedOpcode (s.ram.read s.pc.toNat).toNat)) ∧
    (∀ n, s.pc.toNat % 2 = 0 → s.pc.toNat ≤ 65534 → operandCounts[(s.ram.read s.pc.toNat).toNat]? = some n →
      (65534 < s.pc.toNat + 2 * n →
        step s = .next (faulted (stepStart s rest) .fetchOutOfRange (s.pc.toNat + 2 * n))) ∧
      (s.pc.toNat + 2 * n ≤ 65534 →
        ∃ i : Instr, i.opcode = s.ram.read s.pc.toNat ∧ i.operands.length = n ∧
          (∀ k, k < n → (i.operands[k]?).map (fun o => rawNumber o.2) =
            some ((s.ram.read (s.pc.toNat + 2 * (k + 1) + 1)).toNat * 256 +
              (s.ram.read (s.pc.toNat + 2 * (k + 1))).toNat)) ∧
          step s = exec i (stepStart s rest)))

/-- R61: "no-op in HALTED and FAULTED". -/
def Obligations.StoppedEngineStepsAreNoOps : Prop :=
  ∀ (s : State) (rest : List Turn), EngineTurn s rest → s.status ≠ .running →
    step s = .next { s with schedule := rest }

/-- R38: the resize controller's rule. -/
def Obligations.ResizeCheckGrowsAtHalfShrinksBelowQuarter : Prop :=
  ∀ s : State, s.resizeCheck = { s with
    bufLen :=
      if 2 * s.sp ≥ s.bufLen then 2 * s.bufLen
      else if 4 * s.sp < s.bufLen ∧ s.bufLen > 256 then s.bufLen / 2
      else s.bufLen }

/-- R98, R62: an instruction that raises leaves everything but status and record as it was, and so does a fetch that
raises, after its resize check. -/
def Obligations.FaultsArePrecise : Prop :=
  (∀ (i : Instr) (s t : State), s.status ≠ .faulted → exec i s = .next t → t.status = .faulted →
    ∃ k v, k ≠ FaultKind.none ∧ t = faulted s k v) ∧
  (∀ (s t : State) (rest : List Turn), EngineTurn s rest → s.status = .running → step s = .next t →
    t.status = .faulted → ∃ k v, k ≠ FaultKind.none ∧ t = faulted (stepStart s rest) k v)

/-! ### Data movement -/

/-- R65: `set a, b`. -/
def Obligations.SetCopiesValueToRegister : Prop :=
  ∀ a b : Operand,
    EncodedAs (.set a b) 0x0001 [a, b] ∧
    RaisesOperandFaults (.set a b) [(.register, a), (.value, b)] ∧
    ∀ (s : State) (d : RegIdx) (v : Word), a = .reg d → Reads s b v →
      exec (.set a b) s = .next (written s d v 2)

/-- R66: `push a`. -/
def Obligations.PushPutsValueOnStack : Prop :=
  ∀ a : Operand,
    EncodedAs (.push a) 0x0002 [a] ∧
    RaisesOperandFaults (.push a) [(.value, a)] ∧
    ∀ (s : State) (v : Word), Reads s a v →
      (s.stack.length = s.config.stackDepthMax → exec (.push a) s = .next (faulted s .stackOverflow v.toNat)) ∧
      (s.stack.length ≠ s.config.stackDepthMax →
        exec (.push a) s = .next { s with stack := BitVec.ofNat 16 v.toNat :: s.stack, pc := next s 1 })

/-- R67: `pop a`. -/
def Obligations.PopMovesTopEntryToRegister : Prop :=
  ∀ a : Operand,
    EncodedAs (.pop a) 0x0003 [a] ∧
    RaisesOperandFaults (.pop a) [(.register, a)] ∧
    ∀ (s : State) (d : RegIdx), a = .reg d →
      (s.stack = [] → exec (.pop a) s = .next (faulted s .emptyStack 0)) ∧
      (∀ v rest, s.stack = v :: rest →
        (32767 < v.toNat → exec (.pop a) s = .next (faulted s .wordOutOfRange v.toNat)) ∧
        (v.toNat ≤ 32767 →
          exec (.pop a) s = .next { written s d (BitVec.ofNat 15 v.toNat) 1 with stack := rest }))

/-! ### Comparison -/

/-- R68: `eq a, b, c`. -/
def Obligations.EqWritesOneOnEqualValues : Prop :=
  (∀ a b c : Operand,
    EncodedAs (.eq a b c) 0x0004 [a, b, c] ∧
    RaisesOperandFaults (.eq a b c) [(.register, a), (.value, b), (.value, c)]) ∧
  WritesOfTwoValues .eq fun vb vc => if vb = vc then 1 else 0

/-- R69: `gt a, b, c`. -/
def Obligations.GtWritesOneOnGreaterValue : Prop :=
  (∀ a b c : Operand,
    EncodedAs (.gt a b c) 0x0005 [a, b, c] ∧
    RaisesOperandFaults (.gt a b c) [(.register, a), (.value, b), (.value, c)]) ∧
  WritesOfTwoValues .gt fun vb vc => if vb > vc then 1 else 0

/-! ### Control transfer -/

/-- R70: `jmp a`. -/
def Obligations.JmpSetsPcToTwiceTheWordAddress : Prop :=
  ∀ a : Operand,
    EncodedAs (.jmp a) 0x0006 [a] ∧
    RaisesOperandFaults (.jmp a) [(.address, a)] ∧
    ∀ (s : State) (w : Word), Reads s a w →
      exec (.jmp a) s = .next { s with pc := BitVec.ofNat 17 (2 * w.toNat) }

/-- R71: `jt a, b`. -/
def Obligations.JtJumpsOnNonZero : Prop :=
  ∀ a b : Operand,
    EncodedAs (.jt a b) 0x0007 [a, b] ∧
    RaisesOperandFaults (.jt a b) [(.value, a), (.address, b)] ∧
    ∀ (s : State) (v w : Word), Reads s a v → Reads s b w →
      exec (.jt a b) s =
        .next { s with pc := if v.toNat ≠ 0 then BitVec.ofNat 17 (2 * w.toNat) else next s 2 }

/-- R72: `jf a, b`. -/
def Obligations.JfJumpsOnZero : Prop :=
  ∀ a b : Operand,
    EncodedAs (.jf a b) 0x0008 [a, b] ∧
    RaisesOperandFaults (.jf a b) [(.value, a), (.address, b)] ∧
    ∀ (s : State) (v w : Word), Reads s a v → Reads s b w →
      exec (.jf a b) s =
        .next { s with pc := if v.toNat = 0 then BitVec.ofNat 17 (2 * w.toNat) else next s 2 }

/-- R73: `call a`. -/
def Obligations.CallPushesReturnAddressAndJumps : Prop :=
  ∀ a : Operand,
    EncodedAs (.call a) 0x0011 [a] ∧
    RaisesOperandFaults (.call a) [(.address, a)] ∧
    ∀ (s : State) (w : Word), Reads s a w → s.pc.toNat + 2 ≤ 65534 →
      (s.stack.length = s.config.stackDepthMax →
        exec (.call a) s = .next (faulted s .stackOverflow (s.pc.toNat / 2 + 2))) ∧
      (s.stack.length ≠ s.config.stackDepthMax →
        ∃ r : Slot, r.toNat = s.pc.toNat / 2 + 2 ∧
          exec (.call a) s = .next { s with stack := r :: s.stack, pc := BitVec.ofNat 17 (2 * w.toNat) })

/-- R74: `ret`. -/
def Obligations.RetPopsTargetOrHalts : Prop :=
  EncodedAs .ret 0x0012 [] ∧
  ∀ s : State,
    (s.stack = [] → exec .ret s = .next { s with pc := 32769, status := .halted }) ∧
    (∀ w rest, s.stack = w :: rest →
      exec .ret s = .next { s with stack := rest, pc := BitVec.ofNat 17 (2 * w.toNat) })

/-! ### ALU -/

/-- R77: `add a, b, c`. -/
def Obligations.AddWritesSumModulo32768 : Prop :=
  (∀ a b c : Operand,
    EncodedAs (.add a b c) 0x0009 [a, b, c] ∧
    RaisesOperandFaults (.add a b c) [(.register, a), (.value, b), (.value, c)]) ∧
  WritesOfTwoValues .add fun vb vc => (vb + vc) % 32768

/-- R78: `mult a, b, c`. -/
def Obligations.MultWritesProductModulo32768 : Prop :=
  (∀ a b c : Operand,
    EncodedAs (.mult a b c) 0x000a [a, b, c] ∧
    RaisesOperandFaults (.mult a b c) [(.register, a), (.value, b), (.value, c)]) ∧
  WritesOfTwoValues .mult fun vb vc => vb * vc % 32768

/-- R84: any product width of at least 15 bits gives what `mult` writes. -/
def Obligations.MultIsTheSameAtEveryWidth : Prop :=
  ∀ k, 15 ≤ k → WritesOfTwoValues .mult fun vb vc => vb * vc % 2 ^ k % 32768

/-- R79: `mod a, b, c`. -/
def Obligations.ModWritesRemainderOrFaultsOnZero : Prop :=
  ∀ a b c : Operand,
    EncodedAs (.mod a b c) 0x000b [a, b, c] ∧
    RaisesOperandFaults (.mod a b c) [(.register, a), (.value, b), (.value, c)] ∧
    ∀ (s : State) (d : RegIdx) (vb vc : Word), a = .reg d → Reads s b vb → Reads s c vc →
      (vc.toNat = 0 → exec (.mod a b c) s = .next (faulted s .divideByZero 0)) ∧
      (vc.toNat ≠ 0 →
        exec (.mod a b c) s = .next (written s d (BitVec.ofNat 15 (vb.toNat % vc.toNat)) 3))

/-- R80: `and a, b, c`. -/
def Obligations.AndWritesBitwiseAnd : Prop :=
  (∀ a b c : Operand,
    EncodedAs (.and a b c) 0x000c [a, b, c] ∧
    RaisesOperandFaults (.and a b c) [(.register, a), (.value, b), (.value, c)]) ∧
  WritesOfTwoValues .and fun vb vc => Nat.land vb vc

/-- R81: `or a, b, c`. -/
def Obligations.OrWritesBitwiseOr : Prop :=
  (∀ a b c : Operand,
    EncodedAs (.or a b c) 0x000d [a, b, c] ∧
    RaisesOperandFaults (.or a b c) [(.register, a), (.value, b), (.value, c)]) ∧
  WritesOfTwoValues .or fun vb vc => Nat.lor vb vc

/-- R82: `not a, b`; the written value is `vb ^ 0x7fff`, which is `32767 - vb`. -/
def Obligations.NotWritesComplementOfFifteenBits : Prop :=
  ∀ a b : Operand,
    EncodedAs (.not a b) 0x000e [a, b] ∧
    RaisesOperandFaults (.not a b) [(.register, a), (.value, b)] ∧
    ∀ (s : State) (d : RegIdx) (vb : Word), a = .reg d → Reads s b vb →
      exec (.not a b) s = .next (written s d (BitVec.ofNat 15 (Nat.xor vb.toNat 0x7fff)) 2) ∧
      Nat.xor vb.toNat 0x7fff = 32767 - vb.toNat

/-! ### Memory access -/

/-- R86: `rmem a, b`. -/
def Obligations.RmemLoadsStoredWord : Prop :=
  ∀ a b : Operand,
    EncodedAs (.rmem a b) 0x000f [a, b] ∧
    RaisesOperandFaults (.rmem a b) [(.register, a), (.address, b)] ∧
    ∀ (s : State) (d : RegIdx) (w : Word) (v : Nat), a = .reg d → Reads s b w →
      v = (s.ram.read (2 * w.toNat + 1)).toNat * 256 + (s.ram.read (2 * w.toNat)).toNat →
      (32767 < v → exec (.rmem a b) s = .next (faulted s .wordOutOfRange v)) ∧
      (v ≤ 32767 → exec (.rmem a b) s = .next (written s d (BitVec.ofNat 15 v) 2))

/-- R87: `wmem a, b`. RAM is taken in its canonical form, which every step keeps (`StepKeepsInvariant`). -/
def Obligations.WmemStoresWordLittleEndian : Prop :=
  ∀ a b : Operand,
    EncodedAs (.wmem a b) 0x0010 [a, b] ∧
    RaisesOperandFaults (.wmem a b) [(.address, a), (.value, b)] ∧
    ∀ (s : State) (w v : Word), s.ram.wf = true → Reads s a w → Reads s b v →
      ∃ m : Memory, exec (.wmem a b) s = .next { s with ram := m, pc := next s 2 } ∧
        m.wf = true ∧
        m.read (2 * w.toNat) = BitVec.ofNat 8 (v.toNat % 256) ∧
        m.read (2 * w.toNat + 1) = BitVec.ofNat 8 (v.toNat / 256) ∧
        ∀ j, j ≠ 2 * w.toNat → j ≠ 2 * w.toNat + 1 → m.read j = s.ram.read j

/-- R86, R87 (the round trip of the source's properties): a word written is read back. -/
def Obligations.RmemReadsWhatWmemWrote : Prop :=
  ∀ (s : State) (a b : Operand) (d : RegIdx) (w v : Word), s.ram.wf = true → Reads s a w → Reads s b v →
    ∃ t u, exec (.wmem a b) s = .next t ∧ exec (.rmem (.reg d) a) t = .next u ∧ u.getReg d = v ∧
      ∀ r, r ≠ d → u.getReg r = s.getReg r

/-- Two canonical memories that read alike at every address are the same data. -/
def Obligations.MemoriesThatReadAlikeAreEqual : Prop :=
  ∀ m m' : Memory, m.wf = true → m'.wf = true → (∀ j, m.read j = m'.read j) → m = m'

/-! ### System and I/O -/

/-- R91: `halt`. -/
def Obligations.HaltSetsSentinelAndStatus : Prop :=
  EncodedAs .halt 0x0000 [] ∧ ∀ s : State, exec .halt s = .next { s with pc := 32769, status := .halted }

/-- R94: `noop`. -/
def Obligations.NoopAdvancesOnly : Prop :=
  EncodedAs .noop 0x0015 [] ∧ ∀ s : State, exec .noop s = .next { s with pc := next s 0 }

/-- R92, R89: `out a`. A channel that is open and full makes it wait: nothing happens but that the step is held. That a
wait is a next state with `held` set is the model's (log entry 7). -/
def Obligations.OutOffersLowByteToChannel : Prop :=
  ∀ a : Operand,
    EncodedAs (.out a) 0x0013 [a] ∧
    RaisesOperandFaults (.out a) [(.value, a)] ∧
    ∀ (s : State) (v : Word), Reads s a v →
      (s.outClosed = true → exec (.out a) s = .next (faulted s .ioChannelClosed (v.toNat % 256))) ∧
      (s.outClosed = false → (∀ n, s.config.outCap = some n → s.outQ.length < n) →
        exec (.out a) s =
          .next { s with outQ := s.outQ ++ [BitVec.ofNat 8 (v.toNat % 256)], pc := next s 1 }) ∧
      (∀ n, s.outClosed = false → s.config.outCap = some n → n ≤ s.outQ.length →
        exec (.out a) s = .next { s with held := true })

/-- R93, R90: `in a`. An open and empty channel makes it wait: nothing happens but that the step is held. That a wait is a
next state with `held` set is the model's (log entry 7). -/
def Obligations.InTakesHeadByteOfChannel : Prop :=
  ∀ a : Operand,
    EncodedAs (.inp a) 0x0014 [a] ∧
    RaisesOperandFaults (.inp a) [(.register, a)] ∧
    ∀ (s : State) (d : RegIdx), a = .reg d →
      (∀ h q, s.inQ = h :: q →
        exec (.inp a) s = .next { written s d (BitVec.ofNat 15 h.toNat) 1 with inQ := q }) ∧
      (s.inQ = [] → s.inClosed = true → exec (.inp a) s = .next (faulted s .ioChannelClosed 0)) ∧
      (s.inQ = [] → s.inClosed = false → exec (.inp a) s = .next { s with held := true })

/-! ### Frames -/

/-- R16, R62, R98: what the register instructions that touch neither stack nor channel leave unchanged. -/
def Obligations.RegisterWritersFrame : Prop :=
  ∀ (i : Instr) (s t : State),
    ((∃ a b, i = .set a b ∨ i = .not a b ∨ i = .rmem a b) ∨
      ∃ a b c, i = .eq a b c ∨ i = .gt a b c ∨ i = .add a b c ∨ i = .mult a b c ∨ i = .mod a b c ∨
        i = .and a b c ∨ i = .or a b c) →
    exec i s = .next t →
    RegistersFrameExcept s t (destination i) ∧ RamFrame s t ∧ t.stack = s.stack ∧ ChannelFrame s t ∧
      HiddenFrame s t ∧ t.held = s.held ∧ RecordFrame s t

/-- R26, R62, R98: what the stack instructions leave unchanged. Below the top entry, which a `pop` or a `ret` removes and
a `push` or a `call` covers, the stack is as before. `ret` on an empty stack halts. -/
def Obligations.StackInstructionsFrame : Prop :=
  ∀ (i : Instr) (s t : State), ((∃ a, i = .push a ∨ i = .pop a ∨ i = .call a) ∨ i = .ret) → exec i s = .next t →
    RegistersFrameExcept s t (destination i) ∧ RamFrame s t ∧ ChannelFrame s t ∧ HiddenFrame s t ∧
      t.held = s.held ∧
      (t.stack = s.stack ∨ (∃ v, t.stack = v :: s.stack ∧ ∃ a, i = .push a ∨ i = .call a) ∨
        ∃ v, s.stack = v :: t.stack ∧ ((∃ a, i = .pop a) ∨ i = .ret)) ∧
      (RecordFrame s t ∨ (i = .ret ∧ s.stack = [] ∧ t = { s with pc := 32769, status := .halted }))

/-- R62, R70 to R72, R91, R94: jumps, `noop` and `halt` leave everything but the pc unchanged (and `halt` the status). -/
def Obligations.JumpsNoopAndHaltFrame : Prop :=
  ∀ (i : Instr) (s t : State),
    ((∃ a, i = .jmp a) ∨ (∃ a b, i = .jt a b ∨ i = .jf a b) ∨ i = .noop ∨ i = .halt) → exec i s = .next t →
    t.regs = s.regs ∧ RamFrame s t ∧ t.stack = s.stack ∧ ChannelFrame s t ∧ HiddenFrame s t ∧ t.held = s.held ∧
      (RecordFrame s t ∨ (i = .halt ∧ t = { s with pc := 32769, status := .halted }))

/-- R87, R98: `wmem` changes the two bytes at the address its operand a resolves to, and nothing else; if that operand
does not resolve, it changes no byte. -/
def Obligations.WmemFrame : Prop :=
  ∀ (a b : Operand) (s t : State), exec (.wmem a b) s = .next t →
    (∀ p, resolveAddress s a = .ok p → ∀ j, j ≠ p.toNat → j ≠ p.toNat + 1 → t.ram.read j = s.ram.read j) ∧
    (∀ tr, resolveAddress s a = .error tr → RamFrame s t) ∧
    t.regs = s.regs ∧ t.stack = s.stack ∧ ChannelFrame s t ∧ HiddenFrame s t ∧ t.held = s.held ∧ RecordFrame s t

/-- R89, R90, R92, R93, R98: what `out` and `in` leave unchanged: all but the byte at one end of one channel, the
register of an `in`, and the mark that the step is held. -/
def Obligations.ChannelInstructionsFrame : Prop :=
  ∀ (i : Instr) (s t : State), (∃ a, i = .out a ∨ i = .inp a) → exec i s = .next t →
    RegistersFrameExcept s t (destination i) ∧ RamFrame s t ∧ t.stack = s.stack ∧ HiddenFrame s t ∧
      RecordFrame s t ∧ t.outClosed = s.outClosed ∧ t.inClosed = s.inClosed ∧
      (t.outQ = s.outQ ∨ (∃ b, t.outQ = s.outQ ++ [b] ∧ ∃ a, i = .out a)) ∧
      (t.inQ = s.inQ ∨ (∃ b, s.inQ = b :: t.inQ ∧ ∃ a, i = .inp a)) ∧
      (t.held = s.held ∨ t = { s with held := true })

/-! ### Whole-machine rules -/

/-- R16: only 12 instructions write a register, each the one its operand a names. -/
def Obligations.OnlyTwelveInstructionsWriteRegisters : Prop :=
  ∀ (i : Instr) (s t : State) (r : RegIdx), exec i s = .next t → t.getReg r ≠ s.getReg r →
    destination i = some r

/-- R26, R28, R105: only `wmem` changes RAM, only push, pop, call and ret the stack, only `out` OutQ, only `in` InQ; no
instruction changes a closed flag, L, a parameter or the host's plan. -/
def Obligations.EachPlaceHasItsOwnWriters : Prop :=
  ∀ (i : Instr) (s t : State), exec i s = .next t →
    (t.ram ≠ s.ram → ∃ a b, i = .wmem a b) ∧
    (t.stack ≠ s.stack → (∃ a, i = .push a ∨ i = .pop a ∨ i = .call a) ∨ i = .ret) ∧
    (t.outQ ≠ s.outQ → ∃ a, i = .out a) ∧ (t.inQ ≠ s.inQ → ∃ a, i = .inp a) ∧
    t.outClosed = s.outClosed ∧ t.inClosed = s.inClosed ∧ HiddenFrame s t

/-- R23, R102: how the run state changes. Only the host's reset leaves HALTED or FAULTED. -/
def Obligations.StatusChangesOnlyAsTheRulesSay : Prop :=
  ∀ s t : State, step s = .next t → t.status ≠ s.status →
    (s.status = .running ∧ t.status = .halted ∧ t.pc = 32769) ∨
    (s.status = .running ∧ t.status = .faulted ∧ t.faultIp = s.pc ∧ t.pc = s.pc) ∨
    (t.status = .running ∧ ∃ rest, s.schedule = .host .reset :: rest)

/-- R105: "No flag ever clears while the machine exists." -/
def Obligations.ClosedFlagsNeverClear : Prop :=
  ∀ s t : State, step s = .next t →
    (s.outClosed = true → t.outClosed = true) ∧ (s.inClosed = true → t.inClosed = true)

/-- R7, R29: no step changes a parameter, the image among them. -/
def Obligations.ParametersNeverChange : Prop :=
  ∀ s t : State, step s = .next t → t.config = s.config

/-- R61, R97, R106: a step of the machine has a next state, but for a host act that R106 does not allow. That it is
refused is the model's choice (log entry 9). -/
def Obligations.StepAnswersNextUnlessTheHostBreaksItsContract : Prop :=
  ∀ s : State, (∃ t, step s = .next t) ∨
    ∃ rest,
      (s.schedule = .host .takeOutput :: rest ∧ s.outQ = [] ∧ step s = .refused .hostTakesFromEmptyOutput) ∨
      (∃ b, s.schedule = .host (.putInput b) :: rest ∧ s.inClosed = true ∧ step s = .refused .hostPutsAfterClose) ∨
      (∃ b n, s.schedule = .host (.putInput b) :: rest ∧ s.inClosed = false ∧ s.config.inCap = some n ∧
        n ≤ s.inQ.length ∧ step s = .refused .hostPutsPastCapacity)

/-- The invariant holds right after reset. -/
def Obligations.ResetStateSatisfiesInvariant : Prop := State.reset.Inv

/-- R17, R19, R20, R21, R24, R26, R27, R37, R40, R105: every step, of the engine or of the host, keeps the invariant. -/
def Obligations.StepKeepsInvariant : Prop :=
  ∀ s t : State, s.Inv → step s = .next t → t.Inv

/-! ### Reset and the host -/

/-- R113, R114, R32: reset, in any state. A held step is abandoned. -/
def Obligations.ResetRestoresInitialState : Prop :=
  ∀ (s : State) (rest : List Turn), s.schedule = .host .reset :: rest → s.config.image.length ≤ 65536 →
    ∃ m : Memory,
      step s = .next { s with
        regs := Vector.replicate 8 0, stack := [], bufLen := 256, ram := m, pc := 0, status := .running,
        faultKind := .none, faultIp := 0, faultValue := 0, held := false, schedule := rest } ∧
      m.wf = true ∧
      (∀ j (h : j < s.config.image.length), m.read j = s.config.image[j]) ∧
      (∀ j, s.config.image.length ≤ j → m.read j = 0)

/-- R115, R117: construction accepts exactly the allowed parameters, refuses an image over 65536 bytes, and gives the
state that reset gives. The channels' contents there are the model's choice (log entry 4). -/
def Obligations.ConstructionGivesTheResetState : Prop :=
  (∀ c : Config, 65536 < c.image.length → State.construct c = none) ∧
  (∀ c : Config, c.wf = true → ∃ s, State.construct c = some s ∧ s.config = c ∧ s.applyReset = s ∧
    s.outQ = [] ∧ s.inQ = [] ∧ s.outClosed = false ∧ s.inClosed = false) ∧
  State.construct Config.default = some State.reset

/-- R106: the host's acts on the channels. -/
def Obligations.HostActsOnTheChannels : Prop :=
  ∀ (s : State) (rest : List Turn),
    (∀ b q, s.schedule = .host .takeOutput :: rest → s.outQ = b :: q →
      step s = .next { s with outQ := q, schedule := rest }) ∧
    (∀ b, s.schedule = .host (.putInput b) :: rest → s.inClosed = false →
      (∀ n, s.config.inCap = some n → s.inQ.length < n) →
      step s = .next { s with inQ := s.inQ ++ [b], schedule := rest }) ∧
    (s.schedule = .host .closeOutput :: rest → step s = .next { s with outClosed := true, schedule := rest }) ∧
    (s.schedule = .host .closeInput :: rest → step s = .next { s with inClosed := true, schedule := rest })

/-- R23, R96, R107, R108: the codes on the status outputs. -/
def Obligations.StatusOutputsCarryTheCodes : Prop :=
  ∀ s : State,
    s.ports.status.toNat = (match s.status with | .running => 0 | .halted => 1 | .faulted => 2) ∧
    s.ports.faultKind.toNat = (match s.faultKind with
      | .none => 0 | .invalidAddress => 1 | .invalidValue => 2 | .invalidRegister => 3 | .emptyStack => 4
      | .ioChannelClosed => 5 | .malformedOpcode => 6 | .divideByZero => 7 | .fetchOutOfRange => 8
      | .stackOverflow => 9 | .wordOutOfRange => 10) ∧
    s.ports.faultIp = s.faultIp ∧ s.ports.faultValue = s.faultValue

/-- R108, R89, R90: "A byte is accepted when valid and ready are both 1", and "A byte is taken when valid and ready are
both 1"; otherwise the channel keeps its bytes. A closed output channel is offered nothing. In which states between two
steps valid and ready are 1 is the model's choice (log entry 14). -/
def Obligations.HandshakesMoveBytes : Prop :=
  ∀ (s : State) (rest : List Turn), EngineTurn s rest →
    ∃ t, step s = .next t ∧
      (∀ b, s.ports.outOffer = some b → s.ports.outReady = true → t.outQ = s.outQ ++ [b]) ∧
      (s.ports.outOffer = none ∨ s.ports.outReady = false → t.outQ = s.outQ) ∧
      (s.ports.outClosed = true → s.ports.outOffer = none) ∧
      (∀ b, s.ports.inOffer = some b → s.ports.inReady = true → s.inQ = b :: t.inQ) ∧
      (s.ports.inOffer = none ∨ s.ports.inReady = false → t.inQ = s.inQ)

/-! ### Runs -/

/-- R31, R40: a run does not depend on the stack buffer's length. -/
def Obligations.StackBufferLengthIsUnobservable : Prop :=
  ∀ (n : Nat) (s : State) (len : Nat), ∃ t u, engineRun n s = some t ∧ engineRun n { s with bufLen := len } = some u ∧
    { u with bufLen := t.bufLen } = t

/-- R116, R113: after a reset, whatever the run before it did, the same image, parameters and input give the same output
bytes and the same state. The input is there at the reset and the output channel is unbounded, so no wait depends on
the host. -/
def Obligations.RunsAfterResetAreTheSame : Prop :=
  ∀ (n : Nat) (s t : State), s.config = t.config → s.config.outCap = none → s.inQ = t.inQ →
    s.inClosed = t.inClosed → s.outClosed = t.outClosed →
    ∃ s' t' output, engineRun n s.applyReset = some s' ∧ engineRun n t.applyReset = some t' ∧
      s'.outQ = s.outQ ++ output ∧ t'.outQ = t.outQ ++ output ∧
      { s' with outQ := t'.outQ, schedule := t'.schedule } = t'

/-- R66, R67 (the LIFO law of the source's properties): pushed values come back in reverse order, and the stack is as
before. -/
def Obligations.PopsReturnPushedValuesInReverse : Prop :=
  ∀ (vs : List Word) (ds : List RegIdx) (s : State), ds.length = vs.length →
    s.stack.length + vs.length ≤ s.config.stackDepthMax →
    ∃ t, execAll (vs.map (fun v => .push (.lit v)) ++ ds.map (fun d => .pop (.reg d))) s = some t ∧
      t.stack = s.stack ∧
      t.regs = (ds.zip vs.reverse).foldl (fun regs dv => regs.set dv.1 dv.2) s.regs ∧
      t.ram = s.ram
end

