-- ==== Sys2Proof/Laws/Memory.lean ====
section
/-!
SUPPORT. The laws of RAM: a read after a write, the canonical form and that every memory operation keeps it, and little-endian
words.
-/

namespace Sys2Proof.Machine

/-! ### Canonical form -/

theorem Memory.wfFrom_mono {m : Memory} {lo lo' : Nat} (h : m.wfFrom lo = true) (hl : lo' ≤ lo) :
    m.wfFrom lo' = true := by
  cases m with
  | nil => rfl
  | cons c m =>
    simp only [Memory.wfFrom, Bool.and_eq_true, decide_eq_true_eq] at h ⊢
    exact ⟨⟨⟨by omega, h.1.1.2⟩, h.1.2⟩, h.2⟩

theorem Memory.wfFrom_cons_cell {k lo : Nat} {v : Byte} {m : Memory} :
    Memory.wfFrom lo ((k, v) :: m) = true ↔ lo ≤ k ∧ k < 65536 ∧ v ≠ 0 ∧ m.wfFrom (k + 1) = true := by
  simp [Memory.wfFrom, and_assoc]

theorem Memory.wfFrom_cons {a lo : Nat} {v : Byte} {m : Memory} (ha : lo ≤ a) (hr : a < 65536)
    (h : m.wfFrom (a + 1) = true) : (Memory.cons a v m).wfFrom lo = true := by
  unfold Memory.cons
  split
  · exact Memory.wfFrom_mono h (by omega)
  · exact Memory.wfFrom_cons_cell.2 ⟨ha, hr, by assumption, h⟩

theorem Memory.wfFrom_write {m : Memory} {lo a : Nat} (v : Byte) (hm : m.wfFrom lo = true) (ha : lo ≤ a)
    (hr : a < 65536) : (m.write a v).wfFrom lo = true := by
  induction m generalizing lo with
  | nil => exact Memory.wfFrom_cons ha hr rfl
  | cons c m ih =>
    obtain ⟨k, w⟩ := c
    obtain ⟨h1, h2, h3, h4⟩ := Memory.wfFrom_cons_cell.1 hm
    unfold Memory.write
    split
    · rename_i hk
      exact Memory.wfFrom_cons ha hr (Memory.wfFrom_cons_cell.2 ⟨hk, h2, h3, h4⟩)
    · split
      · subst a
        exact Memory.wfFrom_cons ha hr h4
      · exact Memory.wfFrom_cons_cell.2 ⟨h1, h2, h3, ih h4 (by omega)⟩

/-- A one-byte write keeps the canonical form. -/
theorem Memory.wf_write {m : Memory} {a : Nat} (v : Byte) (hm : m.wf = true) (ha : a < 65536) :
    (m.write a v).wf = true :=
  Memory.wfFrom_write v hm (Nat.zero_le a) ha

/-- A word write inside RAM keeps the canonical form. -/
theorem Memory.wf_write2 {m : Memory} {a : Nat} (v : Slot) (hm : m.wf = true) (ha : a + 1 < 65536) :
    (m.write2 a v).wf = true :=
  Memory.wf_write _ (Memory.wf_write _ hm (by omega)) ha

/-- Writing bytes that end inside RAM keeps the canonical form. -/
theorem Memory.wf_writeBytes {m : Memory} {a : Nat} (vs : List Byte) (hm : m.wf = true)
    (ha : a + vs.length ≤ 65536) : (m.writeBytes a vs).wf = true := by
  induction vs generalizing m a with
  | nil => exact hm
  | cons v vs ih =>
    simp only [List.length_cons] at ha
    exact ih (Memory.wf_write v hm (by omega)) (by omega)

theorem Memory.wfFrom_ofImageFrom {a : Nat} (vs : List Byte) (ha : a + vs.length ≤ 65536) :
    (Memory.ofImageFrom a vs).wfFrom a = true := by
  induction vs generalizing a with
  | nil => rfl
  | cons v vs ih =>
    simp only [List.length_cons] at ha
    exact Memory.wfFrom_cons (Nat.le_refl a) (by omega) (ih (by omega))

/-- RAM seeded from an image that fits has the canonical form. -/
theorem Memory.wf_ofImage {image : List Byte} (h : image.length ≤ 65536) :
    (Memory.ofImage image).wf = true :=
  Memory.wfFrom_ofImageFrom image (by omega)

/-! ### Reading after writing -/

theorem Memory.read_of_wfFrom_lt {m : Memory} {lo a : Nat} (hm : m.wfFrom lo = true) (ha : a < lo) :
    m.read a = 0 := by
  induction m generalizing lo with
  | nil => rfl
  | cons c m ih =>
    obtain ⟨k, w⟩ := c
    obtain ⟨h1, _, _, h4⟩ := Memory.wfFrom_cons_cell.1 hm
    unfold Memory.read
    rw [if_neg (by omega), ih h4 (by omega)]

theorem Memory.read_cons_ne {a b : Nat} {v : Byte} {m : Memory} (h : b ≠ a) :
    (Memory.cons a v m).read b = m.read b := by
  unfold Memory.cons
  split
  · rfl
  · rw [Memory.read, if_neg (fun e => h e.symm)]

theorem Memory.read_cons_same {a : Nat} {v : Byte} {m : Memory} (h : m.read a = 0) :
    (Memory.cons a v m).read a = v := by
  unfold Memory.cons
  split
  · rw [h]; exact Eq.symm ‹v = 0›
  · rw [Memory.read, if_pos rfl]

/-- A write leaves every other byte alone. -/
theorem Memory.read_write_ne {m : Memory} {a b : Nat} (v : Byte) (h : b ≠ a) :
    (m.write a v).read b = m.read b := by
  induction m with
  | nil => exact Memory.read_cons_ne h
  | cons c m ih =>
    obtain ⟨k, w⟩ := c
    unfold Memory.write
    split
    · exact Memory.read_cons_ne h
    · split
      · subst a
        rw [Memory.read_cons_ne h, Memory.read, if_neg (fun e => h e.symm)]
      · unfold Memory.read
        rw [ih]

theorem Memory.read_write_same_from {m : Memory} {lo a : Nat} (v : Byte) (hm : m.wfFrom lo = true) :
    (m.write a v).read a = v := by
  induction m generalizing lo with
  | nil => exact Memory.read_cons_same rfl
  | cons c m ih =>
    obtain ⟨k, w⟩ := c
    have h4 := (Memory.wfFrom_cons_cell.1 hm).2.2.2
    unfold Memory.write
    split
    · rename_i hk
      refine Memory.read_cons_same ?_
      rw [Memory.read, if_neg (by omega), Memory.read_of_wfFrom_lt h4 (by omega)]
    · split
      · subst a
        exact Memory.read_cons_same (Memory.read_of_wfFrom_lt h4 (by omega))
      · rw [Memory.read, if_neg (by omega), ih h4]

/-- A read of the byte just written gives it. -/
theorem Memory.read_write_same {m : Memory} (a : Nat) (v : Byte) (hm : m.wf = true) :
    (m.write a v).read a = v :=
  Memory.read_write_same_from v hm

/-- Bytes outside a written word are as before. -/
theorem Memory.read_write2_other {m : Memory} {a b : Nat} (v : Slot) (h0 : b ≠ a) (h1 : b ≠ a + 1) :
    (m.write2 a v).read b = m.read b := by
  rw [Memory.write2, Memory.read_write_ne _ h1, Memory.read_write_ne _ h0]

/-- The low byte of a written word lies at its offset (R33). -/
theorem Memory.read_write2_low {m : Memory} {a : Nat} (v : Slot) (hm : m.wf = true) :
    (m.write2 a v).read a = lowByte v := by
  rw [Memory.write2, Memory.read_write_ne _ (by omega), Memory.read_write_same _ _ hm]

/-- The high byte of a written word lies one above (R33). -/
theorem Memory.read_write2_high {m : Memory} {a : Nat} (v : Slot) (hm : m.wf = true) (ha : a < 65536) :
    (m.write2 a v).read (a + 1) = highByte v := by
  rw [Memory.write2, Memory.read_write_same _ _ (Memory.wf_write _ hm ha)]

/-- The two bytes of a slot make it up again (R9, R33). -/
theorem slotOfBytes_lowByte_highByte (v : Slot) : slotOfBytes (lowByte v) (highByte v) = v := by
  have h := v.isLt
  apply BitVec.eq_of_toNat_eq
  simp only [slotOfBytes, lowByte, highByte, BitVec.toNat_ofNat]
  omega

/-- A word read after it was written. -/
theorem Memory.read2_write2 {m : Memory} {a : Nat} (v : Slot) (hm : m.wf = true) (ha : a < 65536) :
    (m.write2 a v).read2 a = v := by
  rw [Memory.read2, Memory.read_write2_low v hm, Memory.read_write2_high v hm ha,
    slotOfBytes_lowByte_highByte]

/-- A byte beyond RAM reads as 0 in a canonical memory. -/
theorem Memory.read_beyond {m : Memory} {lo a : Nat} (hm : m.wfFrom lo = true) (ha : 65536 ≤ a) : m.read a = 0 := by
  induction m generalizing lo with
  | nil => rfl
  | cons c m ih =>
    obtain ⟨k, w⟩ := c
    obtain ⟨_, h2, _, h4⟩ := Memory.wfFrom_cons_cell.1 hm
    rw [Memory.read, if_neg (by omega), ih h4]

theorem Memory.read_ofImageFrom {a j : Nat} (vs : List Byte) (ha : a + vs.length ≤ 65536) :
    (Memory.ofImageFrom a vs).read j = if a ≤ j then vs.getD (j - a) 0 else 0 := by
  induction vs generalizing a with
  | nil => simp [Memory.ofImageFrom, Memory.read]
  | cons v vs ih =>
    simp only [List.length_cons] at ha
    unfold Memory.ofImageFrom
    by_cases hj : j = a
    · subst j
      rw [Memory.read_cons_same (by rw [ih (by omega), if_neg (by omega)])]
      simp
    · rw [Memory.read_cons_ne hj, ih (by omega)]
      by_cases h : a + 1 ≤ j
      · obtain ⟨k, rfl⟩ : ∃ k, j = a + 1 + k := ⟨j - (a + 1), by omega⟩
        rw [if_pos h, if_pos (by omega), Nat.add_sub_cancel_left, show a + 1 + k - a = k + 1 by omega,
          List.getD_cons_succ]
      · rw [if_neg h, if_neg (by omega)]

/-- RAM seeded from an image holds the image's bytes, and 0 beyond them (R29, R113). -/
theorem Memory.read_ofImage {image : List Byte} (h : image.length ≤ 65536) (j : Nat) :
    (Memory.ofImage image).read j = image.getD j 0 := by
  have := Memory.read_ofImageFrom (a := 0) (j := j) image (by omega)
  rwa [if_pos (Nat.zero_le j), Nat.sub_zero] at this

end Sys2Proof.Machine
end

