-- ==== Sys2Proof/Laws/Decode.lean ====
section
/-!
SUPPORT. The decoder and the encoder: operands, slot bytes, and how many bytes an instruction takes.
-/

namespace Sys2Proof

/-- An operand read back from its raw value is the operand (R53). -/
theorem classify_raw {o : Operand} (h : o.wf = true) : classify o.raw = o := by
  cases o with
  | lit w =>
    have := w.isLt
    have hw : (Operand.lit w).raw.toNat = w.toNat := by
      simp only [Operand.raw, BitVec.toNat_setWidth]; omega
    unfold classify
    split
    · congr 1
      apply BitVec.eq_of_toNat_eq
      rw [BitVec.toNat_setWidth, hw]
      omega
    · omega
  | reg r =>
    have := r.isLt
    have hr : (Operand.reg r).raw.toNat = 32768 + r.val := by
      simp only [Operand.raw, BitVec.toNat_ofNat]; omega
    unfold classify
    split
    · omega
    · split
      · generalize (Operand.reg r).raw.toNat = n at hr
        refine congrArg Operand.reg (Fin.ext ?_)
        simp only [Fin.ofNat]
        omega
      · omega
  | invalid raw =>
    simp only [Operand.wf, decide_eq_true_eq] at h
    have hr : (Operand.invalid raw).raw.toNat = raw.toNat := rfl
    unfold classify
    split
    · omega
    · split
      · omega
      · rfl

/-- A raw value survives classification: no bit of an operand slot is dropped. -/
theorem raw_classify (v : Slot) : (classify v).raw = v := by
  have h := v.isLt
  apply BitVec.eq_of_toNat_eq
  unfold classify
  split
  · simp only [Operand.raw, BitVec.toNat_setWidth]
    omega
  · split
    · simp only [Operand.raw, BitVec.toNat_ofNat, Fin.ofNat]
      omega
    · rfl

/-- Classification gives a well-formed operand (R53). -/
theorem classify_wf (v : Slot) : (classify v).wf = true := by
  unfold classify
  split
  · rfl
  · split
    · rfl
    · simp only [Operand.wf, decide_eq_true_eq]
      omega

/-- The low byte of a slot made of two bytes. -/
theorem lowByte_slotOfBytes (lo hi : Byte) : lowByte (slotOfBytes lo hi) = lo := by
  have h1 := lo.isLt
  have h2 := hi.isLt
  apply BitVec.eq_of_toNat_eq
  simp only [lowByte, slotOfBytes, BitVec.toNat_ofNat]
  omega

/-- The high byte of a slot made of two bytes. -/
theorem highByte_slotOfBytes (lo hi : Byte) : highByte (slotOfBytes lo hi) = hi := by
  have h1 := lo.isLt
  have h2 := hi.isLt
  apply BitVec.eq_of_toNat_eq
  simp only [highByte, slotOfBytes, BitVec.toNat_ofNat]
  omega

/-- A slot's bytes make it up again, in RAM order. -/
theorem slotOfBytes_bytes (v : Slot) : slotOfBytes (lowByte v) (highByte v) = v :=
  Machine.slotOfBytes_lowByte_highByte v

/-- What a decoder of one format answers: an instruction that takes two bytes an operand, or the report that the bytes end
too soon. -/
def TakesBytes (bytes : List Byte) (r : Except DecodeError (Instr × List Byte)) : Prop :=
  match r with
  | .ok (i, rest) => bytes.length = 2 * i.operandCount + rest.length
  | .error (.truncated n) => bytes.length < 2 * n
  | .error (.illegalOpcode _) => False

theorem format0_takes {i : Instr} (hi : i.operandCount = 0) (bytes : List Byte) :
    TakesBytes bytes (format0 i bytes) := by
  simp [TakesBytes, format0, hi]

theorem format1_takes {mk : Operand → Instr} (hi : ∀ a, (mk a).operandCount = 1) (bytes : List Byte) :
    TakesBytes bytes (format1 mk bytes) := by
  rcases bytes with _ | ⟨_, _ | ⟨_, _⟩⟩ <;> simp [TakesBytes, format1, hi]
  omega

theorem format2_takes {mk : Operand → Operand → Instr} (hi : ∀ a b, (mk a b).operandCount = 2)
    (bytes : List Byte) : TakesBytes bytes (format2 mk bytes) := by
  rcases bytes with _ | ⟨_, _ | ⟨_, _ | ⟨_, _ | ⟨_, _⟩⟩⟩⟩ <;> simp [TakesBytes, format2, hi]
  omega

theorem format3_takes {mk : Operand → Operand → Operand → Instr} (hi : ∀ a b c, (mk a b c).operandCount = 3)
    (bytes : List Byte) : TakesBytes bytes (format3 mk bytes) := by
  rcases bytes with _ | ⟨_, _ | ⟨_, _ | ⟨_, _ | ⟨_, _ | ⟨_, _ | ⟨_, _⟩⟩⟩⟩⟩⟩ <;> simp [TakesBytes, format3, hi]
  omega

/-- The opcode map: an illegal opcode is reported, and every other takes its operands' bytes (R59, R60). -/
theorem decodeOpcode_takes (op : Byte) (bytes : List Byte) :
    (21 < op.toNat ∧ decodeOpcode op bytes = .error (.illegalOpcode op)) ∨
    (op.toNat ≤ 21 ∧ TakesBytes bytes (decodeOpcode op bytes)) := by
  unfold decodeOpcode
  split <;> first
    | (refine .inr ⟨by omega, ?_⟩
       first
         | exact format0_takes rfl bytes
         | exact format1_takes (fun _ => rfl) bytes
         | exact format2_takes (fun _ _ => rfl) bytes
         | exact format3_takes (fun _ _ _ => rfl) bytes)
    | (refine .inl ⟨?_, rfl⟩
       by_contra hle
       have : op.toNat ≤ 21 := by omega
       interval_cases h : op.toNat <;> simp_all)

/-- An instruction that decodes is no longer than the bytes it was read from. -/
theorem decode_length {bytes rest : List Byte} {i : Instr} (h : decode bytes = .ok (i, rest)) :
    bytes.length = 2 * (1 + i.operandCount) + rest.length := by
  rcases bytes with _ | ⟨op, _ | ⟨hi, bs⟩⟩ <;> simp only [decode, reduceCtorEq] at h
  rcases decodeOpcode_takes op bs with ⟨_, h2⟩ | ⟨_, h2⟩
  · rw [h2] at h; cases h
  · rw [h] at h2
    simp only [TakesBytes] at h2
    simp only [List.length_cons]
    omega

end Sys2Proof
end

