-- ==== Sys2Proof/Laws/Ops.lean ====
section
/-!
SUPPORT. For each shared operation, once, everything it can do.
-/

namespace Sys2Proof.Machine

/-! ### Sequencing inside a rule -/

@[simp] theorem except_ok_bind {α β : Type} (a : α) (f : α → Except Trap β) :
    ((Except.ok a : Except Trap α) >>= f) = f a := rfl

@[simp] theorem except_error_bind {α β : Type} (t : Trap) (f : α → Except Trap β) :
    ((Except.error t : Except Trap α) >>= f) = .error t := rfl

/-- A rule that goes on has passed its first part. -/
theorem except_bind_eq_ok {α β : Type} {x : Except Trap α} {f : α → Except Trap β} {b : β} :
    (x >>= f) = .ok b ↔ ∃ a, x = .ok a ∧ f a = .ok b := by
  cases x <;> simp

/-- A rule that faults does so in its first part or after it. -/
theorem except_bind_eq_error {α β : Type} {x : Except Trap α} {f : α → Except Trap β} {t : Trap} :
    (x >>= f) = .error t ↔ x = .error t ∨ ∃ a, x = .ok a ∧ f a = .error t := by
  cases x <;> simp

/-! ### How an instruction ends -/

@[simp] theorem complete_error (n : Nat) (s : State) (t : Trap) :
    complete n s (.error t) = .next (s.raise t) := rfl

@[simp] theorem complete_next (n : Nat) (s s' : State) :
    complete n s (.ok (s', .next)) = .next (s'.setPc (s.nextPc n)) := rfl

@[simp] theorem complete_jump (n : Nat) (s s' : State) (t : ByteOffset) :
    complete n s (.ok (s', .jump t)) = .next (s'.setPc t) := rfl

@[simp] theorem complete_halt (n : Nat) (s s' : State) :
    complete n s (.ok (s', .halt)) = .next s'.halt := rfl

@[simp] theorem complete_wait (n : Nat) (s s' : State) :
    complete n s (.ok (s', .wait)) = .next (s.setHeld true) := rfl

/-- An instruction's end is one of these five next states. -/
theorem complete_cases {n : Nat} {s t : State} {e : Effect} (h : complete n s e = .next t) :
    (∃ tr, e = .error tr ∧ t = s.raise tr) ∨
    (∃ s', e = .ok (s', .next) ∧ t = s'.setPc (s.nextPc n)) ∨
    (∃ s' p, e = .ok (s', .jump p) ∧ t = s'.setPc p) ∨
    (∃ s', e = .ok (s', .halt) ∧ t = s'.halt) ∨
    (∃ s', e = .ok (s', .wait) ∧ t = s.setHeld true) := by
  rcases e with tr | ⟨s', _ | p | _ | _⟩ <;>
    simp only [complete_error, complete_next, complete_jump, complete_halt, complete_wait,
      Host.Outcome.next.injEq] at h <;> subst h <;> simp

/-- An instruction always ends in a next state. -/
theorem complete_answers_next (n : Nat) (s : State) (e : Effect) : ∃ t, complete n s e = .next t := by
  rcases e with tr | ⟨s', _ | p | _ | _⟩ <;> simp

/-! ### The operand decoder -/

@[simp] theorem resolveValue_lit (s : State) (w : Word) : resolveValue s (.lit w) = .ok w := rfl

@[simp] theorem resolveValue_reg (s : State) (r : RegIdx) : resolveValue s (.reg r) = .ok (s.getReg r) := rfl

@[simp] theorem resolveValue_invalid (s : State) (raw : Slot) :
    resolveValue s (.invalid raw) = .error ⟨.invalidValue, raw.setWidth 17⟩ := rfl

@[simp] theorem resolveRegister_lit (w : Word) :
    resolveRegister (.lit w) = .error ⟨.invalidRegister, (w.setWidth 16).setWidth 17⟩ := rfl

@[simp] theorem resolveRegister_reg (r : RegIdx) : resolveRegister (.reg r) = .ok r := rfl

@[simp] theorem resolveRegister_invalid (raw : Slot) :
    resolveRegister (.invalid raw) = .error ⟨.invalidValue, raw.setWidth 17⟩ := rfl

@[simp] theorem resolveAddress_lit (s : State) (w : Word) : resolveAddress s (.lit w) = .ok (byteOf w) := rfl

@[simp] theorem resolveAddress_reg (s : State) (r : RegIdx) :
    resolveAddress s (.reg r) = .ok (byteOf (s.getReg r)) := rfl

@[simp] theorem resolveAddress_invalid (s : State) (raw : Slot) :
    resolveAddress s (.invalid raw) = .error ⟨.invalidAddress, raw.setWidth 17⟩ := rfl

theorem resolveRegister_eq_ok {o : Operand} {d : RegIdx} : resolveRegister o = .ok d ↔ o = .reg d := by
  cases o <;> simp

/-- Every resolved address is a word's byte offset: even and at most 65534 (R56). -/
theorem resolveAddress_eq_byteOf {s : State} {o : Operand} {p : ByteOffset} (h : resolveAddress s o = .ok p) :
    ∃ w, p = byteOf w := by
  cases o <;> simp at h <;> exact ⟨_, h.symm⟩

/-- The byte offset of a word address (R34). -/
@[simp] theorem byteOf_toNat (w : Word) : (byteOf w).toNat = 2 * w.toNat := by
  have := w.isLt
  simp only [byteOf, BitVec.toNat_ofNat]
  omega

theorem resolveValue_error_kind {s : State} {o : Operand} {t : Trap} (h : resolveValue s o = .error t) :
    t.kind ≠ .none := by
  cases o <;> simp at h; subst h; simp

theorem resolveRegister_error_kind {o : Operand} {t : Trap} (h : resolveRegister o = .error t) :
    t.kind ≠ .none := by
  cases o <;> simp at h <;> subst h <;> simp

theorem resolveAddress_error_kind {s : State} {o : Operand} {t : Trap} (h : resolveAddress s o = .error t) :
    t.kind ≠ .none := by
  cases o <;> simp at h; subst h; simp

/-- Value operands depend on the registers alone (R54, R57). -/
theorem resolveValue_congr {s t : State} (h : s.regs = t.regs) (o : Operand) :
    resolveValue s o = resolveValue t o := by
  cases o <;> simp [State.getReg, h]

/-- Address operands depend on the registers alone (R56, R57). -/
theorem resolveAddress_congr {s t : State} (h : s.regs = t.regs) (o : Operand) :
    resolveAddress s o = resolveAddress t o := by
  cases o <;> simp [State.getReg, h]

/-- `op R V` writes one register and goes on, or faults. -/
theorem writeUnary_cases {s : State} {a b : Operand} {f : Word → Word} {r : State × Exit}
    (h : writeUnary s a b f = .ok r) :
    ∃ d vb, a = .reg d ∧ resolveValue s b = .ok vb ∧ r = (s.setReg d (f vb), .next) := by
  simp only [writeUnary, except_bind_eq_ok, resolveRegister_eq_ok] at h
  obtain ⟨d, ha, vb, hb, h⟩ := h
  exact ⟨d, vb, ha, hb, by cases h; rfl⟩

/-- `op R V V` writes one register and goes on, or faults. -/
theorem writeBinary_cases {s : State} {a b c : Operand} {f : Word → Word → Except Trap Word}
    {r : State × Exit} (h : writeBinary s a b c f = .ok r) :
    ∃ d vb vc v, a = .reg d ∧ resolveValue s b = .ok vb ∧ resolveValue s c = .ok vc ∧ f vb vc = .ok v ∧
      r = (s.setReg d v, .next) := by
  simp only [writeBinary, except_bind_eq_ok, resolveRegister_eq_ok] at h
  obtain ⟨d, ha, vb, hb, vc, hc, v, hv, h⟩ := h
  exact ⟨d, vb, vc, v, ha, hb, hc, hv, by cases h; rfl⟩

theorem writeUnary_error_kind {s : State} {a b : Operand} {f : Word → Word} {t : Trap}
    (h : writeUnary s a b f = .error t) : t.kind ≠ .none := by
  simp only [writeUnary, except_bind_eq_error, reduceCtorEq, and_false, exists_false, or_false] at h
  rcases h with h | ⟨_, _, h⟩
  · exact resolveRegister_error_kind h
  · exact resolveValue_error_kind h

theorem writeBinary_error_kind {s : State} {a b c : Operand} {f : Word → Word → Except Trap Word} {t : Trap}
    (hf : ∀ vb vc, f vb vc = .error t → t.kind ≠ .none) (h : writeBinary s a b c f = .error t) :
    t.kind ≠ .none := by
  simp only [writeBinary, except_bind_eq_error, reduceCtorEq, and_false, exists_false, or_false] at h
  rcases h with h | ⟨_, _, h | ⟨vb, _, h | ⟨vc, _, h⟩⟩⟩
  · exact resolveRegister_error_kind h
  · exact resolveValue_error_kind h
  · exact resolveValue_error_kind h
  · exact hf vb vc h

/-! ### The stack and the channels -/

theorem pushEntry_eq_error {s : State} {v : Slot} {t : Trap} :
    s.pushEntry v = .error t ↔ s.sp = s.config.stackDepthMax ∧ t = ⟨.stackOverflow, v.setWidth 17⟩ := by
  unfold State.pushEntry
  split
  · simp only [Except.error.injEq, *, true_and]
    exact eq_comm
  · simp [*]

theorem wordOfSlot_eq_error {v : Slot} {t : Trap} :
    wordOfSlot v = .error t ↔ 32767 < v.toNat ∧ t = ⟨.wordOutOfRange, v.setWidth 17⟩ := by
  unfold wordOfSlot
  split
  · simp only [Except.error.injEq, *, true_and]
    exact eq_comm
  · simp [*]

theorem outByte_eq_error {s : State} {b : Byte} {t : Trap} :
    s.outByte b = .error t ↔ s.outClosed = true ∧ t = ⟨.ioChannelClosed, b.setWidth 17⟩ := by
  unfold State.outByte
  split
  · simp only [Except.error.injEq, *, true_and]
    exact eq_comm
  · split <;> simp_all

theorem inByte_eq_error {s : State} {t : Trap} :
    s.inByte = .error t ↔ s.inQ = [] ∧ s.inClosed = true ∧ t = ⟨.ioChannelClosed, 0⟩ := by
  unfold State.inByte
  cases s.inQ with
  | nil => cases s.inClosed <;> simp [eq_comm]
  | cons x q => simp

/-- A push that does not overflow puts the value on top (R35). -/
theorem pushEntry_eq_ok {s s' : State} {v : Slot} :
    s.pushEntry v = .ok s' ↔ s.sp ≠ s.config.stackDepthMax ∧ s' = s.setStack (v :: s.stack) := by
  unfold State.pushEntry
  split
  · simp [*]
  · simp only [Except.ok.injEq, ne_eq, *, not_false_eq_true, true_and]
    exact eq_comm

/-- A stored value fits a register exactly when it is at most 32767 (D11). -/
theorem wordOfSlot_eq_ok {v : Slot} {w : Word} :
    wordOfSlot v = .ok w ↔ v.toNat ≤ 32767 ∧ w = v.setWidth 15 := by
  unfold wordOfSlot
  split <;> simp [eq_comm] <;> omega

/-- An output byte is accepted, or waits, or meets a closed channel (R89). -/
theorem outByte_eq_ok {s : State} {b : Byte} {r : Option State} :
    s.outByte b = .ok r ↔ s.outClosed = false ∧
      r = if hasRoom s.config.outCap s.outQ then some (s.setOutQ (s.outQ ++ [b])) else none := by
  unfold State.outByte
  cases s.outClosed with
  | true => simp
  | false =>
    cases hasRoom s.config.outCap s.outQ <;> simp only [Bool.false_eq_true, if_false, if_true, Except.ok.injEq, true_and]
      <;> exact eq_comm

/-- An input byte is taken from the head, or waits, or meets a closed and empty channel (R90). -/
theorem inByte_eq_some {s s' : State} {h : Byte} :
    s.inByte = .ok (some (h, s')) ↔ ∃ q, s.inQ = h :: q ∧ s' = s.setInQ q := by
  unfold State.inByte
  cases hq : s.inQ with
  | nil => cases s.inClosed <;> simp
  | cons x q =>
    simp only [Except.ok.injEq, Option.some.injEq, Prod.mk.injEq, List.cons.injEq]
    constructor
    · rintro ⟨rfl, rfl⟩
      exact ⟨q, ⟨rfl, rfl⟩, rfl⟩
    · rintro ⟨q', ⟨rfl, rfl⟩, rfl⟩
      exact ⟨rfl, rfl⟩

theorem inByte_eq_none {s : State} :
    s.inByte = .ok none ↔ s.inQ = [] ∧ s.inClosed = false := by
  unfold State.inByte
  split <;> simp_all

/-- The buffer grows, shrinks or stays (R38). -/
theorem resizedLen_cases (sp len : Nat) :
    (len ≤ 2 * sp ∧ resizedLen sp len = 2 * len) ∨
    (2 * sp < len ∧ 4 * sp < len ∧ 256 < len ∧ resizedLen sp len = len / 2) ∨
    (2 * sp < len ∧ (len ≤ 4 * sp ∨ len ≤ 256) ∧ resizedLen sp len = len) := by
  unfold resizedLen stackFloor
  split
  · exact .inl ⟨‹_›, rfl⟩
  · split <;> [refine .inr (.inl ⟨?_, ?_, ?_, rfl⟩); refine .inr (.inr ⟨?_, ?_, rfl⟩)] <;> omega

end Sys2Proof.Machine
end

