-- ==== Sys2Proof/Laws/State.lean ====
section
/-!
SUPPORT. One lemma for each field of State and each update of it, so that no later proof unfolds a record update.
-/

namespace Sys2Proof.Machine

variable (s : State)

/-! ### setReg -/

@[simp] theorem State.setReg_regs (d : RegIdx) (v : Word) : (s.setReg d v).regs = s.regs.set d v := rfl
@[simp] theorem State.setReg_pc (d : RegIdx) (v : Word) : (s.setReg d v).pc = s.pc := rfl
@[simp] theorem State.setReg_status (d : RegIdx) (v : Word) : (s.setReg d v).status = s.status := rfl
@[simp] theorem State.setReg_faultKind (d : RegIdx) (v : Word) : (s.setReg d v).faultKind = s.faultKind := rfl
@[simp] theorem State.setReg_faultIp (d : RegIdx) (v : Word) : (s.setReg d v).faultIp = s.faultIp := rfl
@[simp] theorem State.setReg_faultValue (d : RegIdx) (v : Word) : (s.setReg d v).faultValue = s.faultValue := rfl
@[simp] theorem State.setReg_stack (d : RegIdx) (v : Word) : (s.setReg d v).stack = s.stack := rfl
@[simp] theorem State.setReg_bufLen (d : RegIdx) (v : Word) : (s.setReg d v).bufLen = s.bufLen := rfl
@[simp] theorem State.setReg_ram (d : RegIdx) (v : Word) : (s.setReg d v).ram = s.ram := rfl
@[simp] theorem State.setReg_outQ (d : RegIdx) (v : Word) : (s.setReg d v).outQ = s.outQ := rfl
@[simp] theorem State.setReg_outClosed (d : RegIdx) (v : Word) : (s.setReg d v).outClosed = s.outClosed := rfl
@[simp] theorem State.setReg_inQ (d : RegIdx) (v : Word) : (s.setReg d v).inQ = s.inQ := rfl
@[simp] theorem State.setReg_inClosed (d : RegIdx) (v : Word) : (s.setReg d v).inClosed = s.inClosed := rfl
@[simp] theorem State.setReg_held (d : RegIdx) (v : Word) : (s.setReg d v).held = s.held := rfl
@[simp] theorem State.setReg_config (d : RegIdx) (v : Word) : (s.setReg d v).config = s.config := rfl
@[simp] theorem State.setReg_schedule (d : RegIdx) (v : Word) : (s.setReg d v).schedule = s.schedule := rfl

/-! ### setPc -/

@[simp] theorem State.setPc_regs (t : ByteOffset) : (s.setPc t).regs = s.regs := rfl
@[simp] theorem State.setPc_pc (t : ByteOffset) : (s.setPc t).pc = t := rfl
@[simp] theorem State.setPc_status (t : ByteOffset) : (s.setPc t).status = s.status := rfl
@[simp] theorem State.setPc_faultKind (t : ByteOffset) : (s.setPc t).faultKind = s.faultKind := rfl
@[simp] theorem State.setPc_faultIp (t : ByteOffset) : (s.setPc t).faultIp = s.faultIp := rfl
@[simp] theorem State.setPc_faultValue (t : ByteOffset) : (s.setPc t).faultValue = s.faultValue := rfl
@[simp] theorem State.setPc_stack (t : ByteOffset) : (s.setPc t).stack = s.stack := rfl
@[simp] theorem State.setPc_bufLen (t : ByteOffset) : (s.setPc t).bufLen = s.bufLen := rfl
@[simp] theorem State.setPc_ram (t : ByteOffset) : (s.setPc t).ram = s.ram := rfl
@[simp] theorem State.setPc_outQ (t : ByteOffset) : (s.setPc t).outQ = s.outQ := rfl
@[simp] theorem State.setPc_outClosed (t : ByteOffset) : (s.setPc t).outClosed = s.outClosed := rfl
@[simp] theorem State.setPc_inQ (t : ByteOffset) : (s.setPc t).inQ = s.inQ := rfl
@[simp] theorem State.setPc_inClosed (t : ByteOffset) : (s.setPc t).inClosed = s.inClosed := rfl
@[simp] theorem State.setPc_held (t : ByteOffset) : (s.setPc t).held = s.held := rfl
@[simp] theorem State.setPc_config (t : ByteOffset) : (s.setPc t).config = s.config := rfl
@[simp] theorem State.setPc_schedule (t : ByteOffset) : (s.setPc t).schedule = s.schedule := rfl

/-! ### setRam -/

@[simp] theorem State.setRam_regs (m : Memory) : (s.setRam m).regs = s.regs := rfl
@[simp] theorem State.setRam_pc (m : Memory) : (s.setRam m).pc = s.pc := rfl
@[simp] theorem State.setRam_status (m : Memory) : (s.setRam m).status = s.status := rfl
@[simp] theorem State.setRam_faultKind (m : Memory) : (s.setRam m).faultKind = s.faultKind := rfl
@[simp] theorem State.setRam_faultIp (m : Memory) : (s.setRam m).faultIp = s.faultIp := rfl
@[simp] theorem State.setRam_faultValue (m : Memory) : (s.setRam m).faultValue = s.faultValue := rfl
@[simp] theorem State.setRam_stack (m : Memory) : (s.setRam m).stack = s.stack := rfl
@[simp] theorem State.setRam_bufLen (m : Memory) : (s.setRam m).bufLen = s.bufLen := rfl
@[simp] theorem State.setRam_ram (m : Memory) : (s.setRam m).ram = m := rfl
@[simp] theorem State.setRam_outQ (m : Memory) : (s.setRam m).outQ = s.outQ := rfl
@[simp] theorem State.setRam_outClosed (m : Memory) : (s.setRam m).outClosed = s.outClosed := rfl
@[simp] theorem State.setRam_inQ (m : Memory) : (s.setRam m).inQ = s.inQ := rfl
@[simp] theorem State.setRam_inClosed (m : Memory) : (s.setRam m).inClosed = s.inClosed := rfl
@[simp] theorem State.setRam_held (m : Memory) : (s.setRam m).held = s.held := rfl
@[simp] theorem State.setRam_config (m : Memory) : (s.setRam m).config = s.config := rfl
@[simp] theorem State.setRam_schedule (m : Memory) : (s.setRam m).schedule = s.schedule := rfl

/-! ### setStack -/

@[simp] theorem State.setStack_regs (st : List Slot) : (s.setStack st).regs = s.regs := rfl
@[simp] theorem State.setStack_pc (st : List Slot) : (s.setStack st).pc = s.pc := rfl
@[simp] theorem State.setStack_status (st : List Slot) : (s.setStack st).status = s.status := rfl
@[simp] theorem State.setStack_faultKind (st : List Slot) : (s.setStack st).faultKind = s.faultKind := rfl
@[simp] theorem State.setStack_faultIp (st : List Slot) : (s.setStack st).faultIp = s.faultIp := rfl
@[simp] theorem State.setStack_faultValue (st : List Slot) : (s.setStack st).faultValue = s.faultValue := rfl
@[simp] theorem State.setStack_stack (st : List Slot) : (s.setStack st).stack = st := rfl
@[simp] theorem State.setStack_bufLen (st : List Slot) : (s.setStack st).bufLen = s.bufLen := rfl
@[simp] theorem State.setStack_ram (st : List Slot) : (s.setStack st).ram = s.ram := rfl
@[simp] theorem State.setStack_outQ (st : List Slot) : (s.setStack st).outQ = s.outQ := rfl
@[simp] theorem State.setStack_outClosed (st : List Slot) : (s.setStack st).outClosed = s.outClosed := rfl
@[simp] theorem State.setStack_inQ (st : List Slot) : (s.setStack st).inQ = s.inQ := rfl
@[simp] theorem State.setStack_inClosed (st : List Slot) : (s.setStack st).inClosed = s.inClosed := rfl
@[simp] theorem State.setStack_held (st : List Slot) : (s.setStack st).held = s.held := rfl
@[simp] theorem State.setStack_config (st : List Slot) : (s.setStack st).config = s.config := rfl
@[simp] theorem State.setStack_schedule (st : List Slot) : (s.setStack st).schedule = s.schedule := rfl

/-! ### setBufLen -/

@[simp] theorem State.setBufLen_regs (n : Nat) : (s.setBufLen n).regs = s.regs := rfl
@[simp] theorem State.setBufLen_pc (n : Nat) : (s.setBufLen n).pc = s.pc := rfl
@[simp] theorem State.setBufLen_status (n : Nat) : (s.setBufLen n).status = s.status := rfl
@[simp] theorem State.setBufLen_faultKind (n : Nat) : (s.setBufLen n).faultKind = s.faultKind := rfl
@[simp] theorem State.setBufLen_faultIp (n : Nat) : (s.setBufLen n).faultIp = s.faultIp := rfl
@[simp] theorem State.setBufLen_faultValue (n : Nat) : (s.setBufLen n).faultValue = s.faultValue := rfl
@[simp] theorem State.setBufLen_stack (n : Nat) : (s.setBufLen n).stack = s.stack := rfl
@[simp] theorem State.setBufLen_bufLen (n : Nat) : (s.setBufLen n).bufLen = n := rfl
@[simp] theorem State.setBufLen_ram (n : Nat) : (s.setBufLen n).ram = s.ram := rfl
@[simp] theorem State.setBufLen_outQ (n : Nat) : (s.setBufLen n).outQ = s.outQ := rfl
@[simp] theorem State.setBufLen_outClosed (n : Nat) : (s.setBufLen n).outClosed = s.outClosed := rfl
@[simp] theorem State.setBufLen_inQ (n : Nat) : (s.setBufLen n).inQ = s.inQ := rfl
@[simp] theorem State.setBufLen_inClosed (n : Nat) : (s.setBufLen n).inClosed = s.inClosed := rfl
@[simp] theorem State.setBufLen_held (n : Nat) : (s.setBufLen n).held = s.held := rfl
@[simp] theorem State.setBufLen_config (n : Nat) : (s.setBufLen n).config = s.config := rfl
@[simp] theorem State.setBufLen_schedule (n : Nat) : (s.setBufLen n).schedule = s.schedule := rfl

/-! ### setHeld -/

@[simp] theorem State.setHeld_regs (h : Bool) : (s.setHeld h).regs = s.regs := rfl
@[simp] theorem State.setHeld_pc (h : Bool) : (s.setHeld h).pc = s.pc := rfl
@[simp] theorem State.setHeld_status (h : Bool) : (s.setHeld h).status = s.status := rfl
@[simp] theorem State.setHeld_faultKind (h : Bool) : (s.setHeld h).faultKind = s.faultKind := rfl
@[simp] theorem State.setHeld_faultIp (h : Bool) : (s.setHeld h).faultIp = s.faultIp := rfl
@[simp] theorem State.setHeld_faultValue (h : Bool) : (s.setHeld h).faultValue = s.faultValue := rfl
@[simp] theorem State.setHeld_stack (h : Bool) : (s.setHeld h).stack = s.stack := rfl
@[simp] theorem State.setHeld_bufLen (h : Bool) : (s.setHeld h).bufLen = s.bufLen := rfl
@[simp] theorem State.setHeld_ram (h : Bool) : (s.setHeld h).ram = s.ram := rfl
@[simp] theorem State.setHeld_outQ (h : Bool) : (s.setHeld h).outQ = s.outQ := rfl
@[simp] theorem State.setHeld_outClosed (h : Bool) : (s.setHeld h).outClosed = s.outClosed := rfl
@[simp] theorem State.setHeld_inQ (h : Bool) : (s.setHeld h).inQ = s.inQ := rfl
@[simp] theorem State.setHeld_inClosed (h : Bool) : (s.setHeld h).inClosed = s.inClosed := rfl
@[simp] theorem State.setHeld_held (h : Bool) : (s.setHeld h).held = h := rfl
@[simp] theorem State.setHeld_config (h : Bool) : (s.setHeld h).config = s.config := rfl
@[simp] theorem State.setHeld_schedule (h : Bool) : (s.setHeld h).schedule = s.schedule := rfl

/-! ### setOutQ -/

@[simp] theorem State.setOutQ_regs (q : List Byte) : (s.setOutQ q).regs = s.regs := rfl
@[simp] theorem State.setOutQ_pc (q : List Byte) : (s.setOutQ q).pc = s.pc := rfl
@[simp] theorem State.setOutQ_status (q : List Byte) : (s.setOutQ q).status = s.status := rfl
@[simp] theorem State.setOutQ_faultKind (q : List Byte) : (s.setOutQ q).faultKind = s.faultKind := rfl
@[simp] theorem State.setOutQ_faultIp (q : List Byte) : (s.setOutQ q).faultIp = s.faultIp := rfl
@[simp] theorem State.setOutQ_faultValue (q : List Byte) : (s.setOutQ q).faultValue = s.faultValue := rfl
@[simp] theorem State.setOutQ_stack (q : List Byte) : (s.setOutQ q).stack = s.stack := rfl
@[simp] theorem State.setOutQ_bufLen (q : List Byte) : (s.setOutQ q).bufLen = s.bufLen := rfl
@[simp] theorem State.setOutQ_ram (q : List Byte) : (s.setOutQ q).ram = s.ram := rfl
@[simp] theorem State.setOutQ_outQ (q : List Byte) : (s.setOutQ q).outQ = q := rfl
@[simp] theorem State.setOutQ_outClosed (q : List Byte) : (s.setOutQ q).outClosed = s.outClosed := rfl
@[simp] theorem State.setOutQ_inQ (q : List Byte) : (s.setOutQ q).inQ = s.inQ := rfl
@[simp] theorem State.setOutQ_inClosed (q : List Byte) : (s.setOutQ q).inClosed = s.inClosed := rfl
@[simp] theorem State.setOutQ_held (q : List Byte) : (s.setOutQ q).held = s.held := rfl
@[simp] theorem State.setOutQ_config (q : List Byte) : (s.setOutQ q).config = s.config := rfl
@[simp] theorem State.setOutQ_schedule (q : List Byte) : (s.setOutQ q).schedule = s.schedule := rfl

/-! ### setInQ -/

@[simp] theorem State.setInQ_regs (q : List Byte) : (s.setInQ q).regs = s.regs := rfl
@[simp] theorem State.setInQ_pc (q : List Byte) : (s.setInQ q).pc = s.pc := rfl
@[simp] theorem State.setInQ_status (q : List Byte) : (s.setInQ q).status = s.status := rfl
@[simp] theorem State.setInQ_faultKind (q : List Byte) : (s.setInQ q).faultKind = s.faultKind := rfl
@[simp] theorem State.setInQ_faultIp (q : List Byte) : (s.setInQ q).faultIp = s.faultIp := rfl
@[simp] theorem State.setInQ_faultValue (q : List Byte) : (s.setInQ q).faultValue = s.faultValue := rfl
@[simp] theorem State.setInQ_stack (q : List Byte) : (s.setInQ q).stack = s.stack := rfl
@[simp] theorem State.setInQ_bufLen (q : List Byte) : (s.setInQ q).bufLen = s.bufLen := rfl
@[simp] theorem State.setInQ_ram (q : List Byte) : (s.setInQ q).ram = s.ram := rfl
@[simp] theorem State.setInQ_outQ (q : List Byte) : (s.setInQ q).outQ = s.outQ := rfl
@[simp] theorem State.setInQ_outClosed (q : List Byte) : (s.setInQ q).outClosed = s.outClosed := rfl
@[simp] theorem State.setInQ_inQ (q : List Byte) : (s.setInQ q).inQ = q := rfl
@[simp] theorem State.setInQ_inClosed (q : List Byte) : (s.setInQ q).inClosed = s.inClosed := rfl
@[simp] theorem State.setInQ_held (q : List Byte) : (s.setInQ q).held = s.held := rfl
@[simp] theorem State.setInQ_config (q : List Byte) : (s.setInQ q).config = s.config := rfl
@[simp] theorem State.setInQ_schedule (q : List Byte) : (s.setInQ q).schedule = s.schedule := rfl

/-! ### setOutClosed -/

@[simp] theorem State.setOutClosed_regs (b : Bool) : (s.setOutClosed b).regs = s.regs := rfl
@[simp] theorem State.setOutClosed_pc (b : Bool) : (s.setOutClosed b).pc = s.pc := rfl
@[simp] theorem State.setOutClosed_status (b : Bool) : (s.setOutClosed b).status = s.status := rfl
@[simp] theorem State.setOutClosed_faultKind (b : Bool) : (s.setOutClosed b).faultKind = s.faultKind := rfl
@[simp] theorem State.setOutClosed_faultIp (b : Bool) : (s.setOutClosed b).faultIp = s.faultIp := rfl
@[simp] theorem State.setOutClosed_faultValue (b : Bool) : (s.setOutClosed b).faultValue = s.faultValue := rfl
@[simp] theorem State.setOutClosed_stack (b : Bool) : (s.setOutClosed b).stack = s.stack := rfl
@[simp] theorem State.setOutClosed_bufLen (b : Bool) : (s.setOutClosed b).bufLen = s.bufLen := rfl
@[simp] theorem State.setOutClosed_ram (b : Bool) : (s.setOutClosed b).ram = s.ram := rfl
@[simp] theorem State.setOutClosed_outQ (b : Bool) : (s.setOutClosed b).outQ = s.outQ := rfl
@[simp] theorem State.setOutClosed_outClosed (b : Bool) : (s.setOutClosed b).outClosed = b := rfl
@[simp] theorem State.setOutClosed_inQ (b : Bool) : (s.setOutClosed b).inQ = s.inQ := rfl
@[simp] theorem State.setOutClosed_inClosed (b : Bool) : (s.setOutClosed b).inClosed = s.inClosed := rfl
@[simp] theorem State.setOutClosed_held (b : Bool) : (s.setOutClosed b).held = s.held := rfl
@[simp] theorem State.setOutClosed_config (b : Bool) : (s.setOutClosed b).config = s.config := rfl
@[simp] theorem State.setOutClosed_schedule (b : Bool) : (s.setOutClosed b).schedule = s.schedule := rfl

/-! ### setInClosed -/

@[simp] theorem State.setInClosed_regs (b : Bool) : (s.setInClosed b).regs = s.regs := rfl
@[simp] theorem State.setInClosed_pc (b : Bool) : (s.setInClosed b).pc = s.pc := rfl
@[simp] theorem State.setInClosed_status (b : Bool) : (s.setInClosed b).status = s.status := rfl
@[simp] theorem State.setInClosed_faultKind (b : Bool) : (s.setInClosed b).faultKind = s.faultKind := rfl
@[simp] theorem State.setInClosed_faultIp (b : Bool) : (s.setInClosed b).faultIp = s.faultIp := rfl
@[simp] theorem State.setInClosed_faultValue (b : Bool) : (s.setInClosed b).faultValue = s.faultValue := rfl
@[simp] theorem State.setInClosed_stack (b : Bool) : (s.setInClosed b).stack = s.stack := rfl
@[simp] theorem State.setInClosed_bufLen (b : Bool) : (s.setInClosed b).bufLen = s.bufLen := rfl
@[simp] theorem State.setInClosed_ram (b : Bool) : (s.setInClosed b).ram = s.ram := rfl
@[simp] theorem State.setInClosed_outQ (b : Bool) : (s.setInClosed b).outQ = s.outQ := rfl
@[simp] theorem State.setInClosed_outClosed (b : Bool) : (s.setInClosed b).outClosed = s.outClosed := rfl
@[simp] theorem State.setInClosed_inQ (b : Bool) : (s.setInClosed b).inQ = s.inQ := rfl
@[simp] theorem State.setInClosed_inClosed (b : Bool) : (s.setInClosed b).inClosed = b := rfl
@[simp] theorem State.setInClosed_held (b : Bool) : (s.setInClosed b).held = s.held := rfl
@[simp] theorem State.setInClosed_config (b : Bool) : (s.setInClosed b).config = s.config := rfl
@[simp] theorem State.setInClosed_schedule (b : Bool) : (s.setInClosed b).schedule = s.schedule := rfl

/-! ### setSchedule -/

@[simp] theorem State.setSchedule_regs (t : List Turn) : (s.setSchedule t).regs = s.regs := rfl
@[simp] theorem State.setSchedule_pc (t : List Turn) : (s.setSchedule t).pc = s.pc := rfl
@[simp] theorem State.setSchedule_status (t : List Turn) : (s.setSchedule t).status = s.status := rfl
@[simp] theorem State.setSchedule_faultKind (t : List Turn) : (s.setSchedule t).faultKind = s.faultKind := rfl
@[simp] theorem State.setSchedule_faultIp (t : List Turn) : (s.setSchedule t).faultIp = s.faultIp := rfl
@[simp] theorem State.setSchedule_faultValue (t : List Turn) : (s.setSchedule t).faultValue = s.faultValue := rfl
@[simp] theorem State.setSchedule_stack (t : List Turn) : (s.setSchedule t).stack = s.stack := rfl
@[simp] theorem State.setSchedule_bufLen (t : List Turn) : (s.setSchedule t).bufLen = s.bufLen := rfl
@[simp] theorem State.setSchedule_ram (t : List Turn) : (s.setSchedule t).ram = s.ram := rfl
@[simp] theorem State.setSchedule_outQ (t : List Turn) : (s.setSchedule t).outQ = s.outQ := rfl
@[simp] theorem State.setSchedule_outClosed (t : List Turn) : (s.setSchedule t).outClosed = s.outClosed := rfl
@[simp] theorem State.setSchedule_inQ (t : List Turn) : (s.setSchedule t).inQ = s.inQ := rfl
@[simp] theorem State.setSchedule_inClosed (t : List Turn) : (s.setSchedule t).inClosed = s.inClosed := rfl
@[simp] theorem State.setSchedule_held (t : List Turn) : (s.setSchedule t).held = s.held := rfl
@[simp] theorem State.setSchedule_config (t : List Turn) : (s.setSchedule t).config = s.config := rfl
@[simp] theorem State.setSchedule_schedule (t : List Turn) : (s.setSchedule t).schedule = t := rfl

/-! ### raise -/

@[simp] theorem State.raise_regs (t : Trap) : (s.raise t).regs = s.regs := rfl
@[simp] theorem State.raise_pc (t : Trap) : (s.raise t).pc = s.pc := rfl
@[simp] theorem State.raise_status (t : Trap) : (s.raise t).status = .faulted := rfl
@[simp] theorem State.raise_faultKind (t : Trap) : (s.raise t).faultKind = t.kind := rfl
@[simp] theorem State.raise_faultIp (t : Trap) : (s.raise t).faultIp = s.pc := rfl
@[simp] theorem State.raise_faultValue (t : Trap) : (s.raise t).faultValue = t.value := rfl
@[simp] theorem State.raise_stack (t : Trap) : (s.raise t).stack = s.stack := rfl
@[simp] theorem State.raise_bufLen (t : Trap) : (s.raise t).bufLen = s.bufLen := rfl
@[simp] theorem State.raise_ram (t : Trap) : (s.raise t).ram = s.ram := rfl
@[simp] theorem State.raise_outQ (t : Trap) : (s.raise t).outQ = s.outQ := rfl
@[simp] theorem State.raise_outClosed (t : Trap) : (s.raise t).outClosed = s.outClosed := rfl
@[simp] theorem State.raise_inQ (t : Trap) : (s.raise t).inQ = s.inQ := rfl
@[simp] theorem State.raise_inClosed (t : Trap) : (s.raise t).inClosed = s.inClosed := rfl
@[simp] theorem State.raise_held (t : Trap) : (s.raise t).held = s.held := rfl
@[simp] theorem State.raise_config (t : Trap) : (s.raise t).config = s.config := rfl
@[simp] theorem State.raise_schedule (t : Trap) : (s.raise t).schedule = s.schedule := rfl

/-! ### halt -/

@[simp] theorem State.halt_regs : (s.halt).regs = s.regs := rfl
@[simp] theorem State.halt_pc : (s.halt).pc = haltSentinel := rfl
@[simp] theorem State.halt_status : (s.halt).status = .halted := rfl
@[simp] theorem State.halt_faultKind : (s.halt).faultKind = s.faultKind := rfl
@[simp] theorem State.halt_faultIp : (s.halt).faultIp = s.faultIp := rfl
@[simp] theorem State.halt_faultValue : (s.halt).faultValue = s.faultValue := rfl
@[simp] theorem State.halt_stack : (s.halt).stack = s.stack := rfl
@[simp] theorem State.halt_bufLen : (s.halt).bufLen = s.bufLen := rfl
@[simp] theorem State.halt_ram : (s.halt).ram = s.ram := rfl
@[simp] theorem State.halt_outQ : (s.halt).outQ = s.outQ := rfl
@[simp] theorem State.halt_outClosed : (s.halt).outClosed = s.outClosed := rfl
@[simp] theorem State.halt_inQ : (s.halt).inQ = s.inQ := rfl
@[simp] theorem State.halt_inClosed : (s.halt).inClosed = s.inClosed := rfl
@[simp] theorem State.halt_held : (s.halt).held = s.held := rfl
@[simp] theorem State.halt_config : (s.halt).config = s.config := rfl
@[simp] theorem State.halt_schedule : (s.halt).schedule = s.schedule := rfl

/-! ### resizeCheck -/

@[simp] theorem State.resizeCheck_regs : (s.resizeCheck).regs = s.regs := rfl
@[simp] theorem State.resizeCheck_pc : (s.resizeCheck).pc = s.pc := rfl
@[simp] theorem State.resizeCheck_status : (s.resizeCheck).status = s.status := rfl
@[simp] theorem State.resizeCheck_faultKind : (s.resizeCheck).faultKind = s.faultKind := rfl
@[simp] theorem State.resizeCheck_faultIp : (s.resizeCheck).faultIp = s.faultIp := rfl
@[simp] theorem State.resizeCheck_faultValue : (s.resizeCheck).faultValue = s.faultValue := rfl
@[simp] theorem State.resizeCheck_stack : (s.resizeCheck).stack = s.stack := rfl
@[simp] theorem State.resizeCheck_bufLen : (s.resizeCheck).bufLen = resizedLen s.sp s.bufLen := rfl
@[simp] theorem State.resizeCheck_ram : (s.resizeCheck).ram = s.ram := rfl
@[simp] theorem State.resizeCheck_outQ : (s.resizeCheck).outQ = s.outQ := rfl
@[simp] theorem State.resizeCheck_outClosed : (s.resizeCheck).outClosed = s.outClosed := rfl
@[simp] theorem State.resizeCheck_inQ : (s.resizeCheck).inQ = s.inQ := rfl
@[simp] theorem State.resizeCheck_inClosed : (s.resizeCheck).inClosed = s.inClosed := rfl
@[simp] theorem State.resizeCheck_held : (s.resizeCheck).held = s.held := rfl
@[simp] theorem State.resizeCheck_config : (s.resizeCheck).config = s.config := rfl
@[simp] theorem State.resizeCheck_schedule : (s.resizeCheck).schedule = s.schedule := rfl

/-! ### applyReset -/

@[simp] theorem State.applyReset_regs : (s.applyReset).regs = Vector.replicate 8 0 := rfl
@[simp] theorem State.applyReset_pc : (s.applyReset).pc = 0 := rfl
@[simp] theorem State.applyReset_status : (s.applyReset).status = .running := rfl
@[simp] theorem State.applyReset_faultKind : (s.applyReset).faultKind = .none := rfl
@[simp] theorem State.applyReset_faultIp : (s.applyReset).faultIp = 0 := rfl
@[simp] theorem State.applyReset_faultValue : (s.applyReset).faultValue = 0 := rfl
@[simp] theorem State.applyReset_stack : (s.applyReset).stack = [] := rfl
@[simp] theorem State.applyReset_bufLen : (s.applyReset).bufLen = stackFloor := rfl
@[simp] theorem State.applyReset_ram : (s.applyReset).ram = Memory.ofImage s.config.image := rfl
@[simp] theorem State.applyReset_outQ : (s.applyReset).outQ = s.outQ := rfl
@[simp] theorem State.applyReset_outClosed : (s.applyReset).outClosed = s.outClosed := rfl
@[simp] theorem State.applyReset_inQ : (s.applyReset).inQ = s.inQ := rfl
@[simp] theorem State.applyReset_inClosed : (s.applyReset).inClosed = s.inClosed := rfl
@[simp] theorem State.applyReset_held : (s.applyReset).held = false := rfl
@[simp] theorem State.applyReset_config : (s.applyReset).config = s.config := rfl
@[simp] theorem State.applyReset_schedule : (s.applyReset).schedule = s.schedule := rfl

/-! ### beginStep -/

@[simp] theorem State.beginStep_regs : s.beginStep.regs = s.regs := by
  unfold State.beginStep; split <;> rfl
@[simp] theorem State.beginStep_pc : s.beginStep.pc = s.pc := by
  unfold State.beginStep; split <;> rfl
@[simp] theorem State.beginStep_status : s.beginStep.status = s.status := by
  unfold State.beginStep; split <;> rfl
@[simp] theorem State.beginStep_faultKind : s.beginStep.faultKind = s.faultKind := by
  unfold State.beginStep; split <;> rfl
@[simp] theorem State.beginStep_faultIp : s.beginStep.faultIp = s.faultIp := by
  unfold State.beginStep; split <;> rfl
@[simp] theorem State.beginStep_faultValue : s.beginStep.faultValue = s.faultValue := by
  unfold State.beginStep; split <;> rfl
@[simp] theorem State.beginStep_stack : s.beginStep.stack = s.stack := by
  unfold State.beginStep; split <;> rfl
@[simp] theorem State.beginStep_ram : s.beginStep.ram = s.ram := by
  unfold State.beginStep; split <;> rfl
@[simp] theorem State.beginStep_outQ : s.beginStep.outQ = s.outQ := by
  unfold State.beginStep; split <;> rfl
@[simp] theorem State.beginStep_outClosed : s.beginStep.outClosed = s.outClosed := by
  unfold State.beginStep; split <;> rfl
@[simp] theorem State.beginStep_inQ : s.beginStep.inQ = s.inQ := by
  unfold State.beginStep; split <;> rfl
@[simp] theorem State.beginStep_inClosed : s.beginStep.inClosed = s.inClosed := by
  unfold State.beginStep; split <;> rfl
@[simp] theorem State.beginStep_config : s.beginStep.config = s.config := by
  unfold State.beginStep; split <;> rfl
@[simp] theorem State.beginStep_schedule : s.beginStep.schedule = s.schedule := by
  unfold State.beginStep; split <;> rfl

@[simp] theorem State.beginStep_held : s.beginStep.held = false := by
  unfold State.beginStep; cases h : s.held <;> simp [h]

/-- The buffer length after the start of a step (R38, R39). -/
theorem State.beginStep_bufLen :
    s.beginStep.bufLen = if s.held then s.bufLen else resizedLen s.sp s.bufLen := by
  unfold State.beginStep; split <;> simp [*]

/-! ### Accessors -/

@[simp] theorem State.getReg_setReg_same (d : RegIdx) (v : Word) : (s.setReg d v).getReg d = v := by
  simp [State.getReg, State.setReg]

theorem State.getReg_setReg_ne {d r : RegIdx} (v : Word) (h : r ≠ d) :
    (s.setReg d v).getReg r = s.getReg r := by
  have : d.val ≠ r.val := fun e => h (Fin.ext e.symm)
  simp [State.getReg, State.setReg, this]

theorem State.getReg_congr {s t : State} (h : s.regs = t.regs) (r : RegIdx) : s.getReg r = t.getReg r := by
  simp [State.getReg, h]

@[simp] theorem State.sp_setReg (d : RegIdx) (v : Word) : (s.setReg d v).sp = s.sp := rfl
@[simp] theorem State.getReg_setPc (t : ByteOffset) (r : RegIdx) : (s.setPc t).getReg r = s.getReg r := rfl
@[simp] theorem State.sp_setPc (t : ByteOffset) : (s.setPc t).sp = s.sp := rfl
@[simp] theorem State.getReg_setRam (m : Memory) (r : RegIdx) : (s.setRam m).getReg r = s.getReg r := rfl
@[simp] theorem State.sp_setRam (m : Memory) : (s.setRam m).sp = s.sp := rfl
@[simp] theorem State.getReg_setStack (st : List Slot) (r : RegIdx) : (s.setStack st).getReg r = s.getReg r := rfl
@[simp] theorem State.getReg_setBufLen (n : Nat) (r : RegIdx) : (s.setBufLen n).getReg r = s.getReg r := rfl
@[simp] theorem State.sp_setBufLen (n : Nat) : (s.setBufLen n).sp = s.sp := rfl
@[simp] theorem State.getReg_setHeld (h : Bool) (r : RegIdx) : (s.setHeld h).getReg r = s.getReg r := rfl
@[simp] theorem State.sp_setHeld (h : Bool) : (s.setHeld h).sp = s.sp := rfl
@[simp] theorem State.getReg_setOutQ (q : List Byte) (r : RegIdx) : (s.setOutQ q).getReg r = s.getReg r := rfl
@[simp] theorem State.sp_setOutQ (q : List Byte) : (s.setOutQ q).sp = s.sp := rfl
@[simp] theorem State.getReg_setInQ (q : List Byte) (r : RegIdx) : (s.setInQ q).getReg r = s.getReg r := rfl
@[simp] theorem State.sp_setInQ (q : List Byte) : (s.setInQ q).sp = s.sp := rfl
@[simp] theorem State.getReg_setOutClosed (b : Bool) (r : RegIdx) : (s.setOutClosed b).getReg r = s.getReg r := rfl
@[simp] theorem State.sp_setOutClosed (b : Bool) : (s.setOutClosed b).sp = s.sp := rfl
@[simp] theorem State.getReg_setInClosed (b : Bool) (r : RegIdx) : (s.setInClosed b).getReg r = s.getReg r := rfl
@[simp] theorem State.sp_setInClosed (b : Bool) : (s.setInClosed b).sp = s.sp := rfl
@[simp] theorem State.getReg_setSchedule (t : List Turn) (r : RegIdx) : (s.setSchedule t).getReg r = s.getReg r := rfl
@[simp] theorem State.sp_setSchedule (t : List Turn) : (s.setSchedule t).sp = s.sp := rfl
@[simp] theorem State.getReg_raise (t : Trap) (r : RegIdx) : (s.raise t).getReg r = s.getReg r := rfl
@[simp] theorem State.sp_raise (t : Trap) : (s.raise t).sp = s.sp := rfl
@[simp] theorem State.getReg_halt (r : RegIdx) : (s.halt).getReg r = s.getReg r := rfl
@[simp] theorem State.sp_halt : (s.halt).sp = s.sp := rfl
@[simp] theorem State.getReg_resizeCheck (r : RegIdx) : (s.resizeCheck).getReg r = s.getReg r := rfl
@[simp] theorem State.sp_resizeCheck : (s.resizeCheck).sp = s.sp := rfl
@[simp] theorem State.sp_setStack (st : List Slot) : (s.setStack st).sp = st.length := rfl
@[simp] theorem State.sp_beginStep : s.beginStep.sp = s.sp := by simp [State.sp]
@[simp] theorem State.getReg_beginStep (r : RegIdx) : s.beginStep.getReg r = s.getReg r := by
  simp [State.getReg]

end Sys2Proof.Machine
end

