-- ==== Sys2Proof/Laws/Exec.lean ====
section
/-!
SUPPORT. What an instruction can do to the machine, said once for all 22 (R16, R26, R62, R98).
-/

namespace Sys2Proof.Machine

/-- The writes instruction `i`, started in `s`, may have made when it ends without a fault and without waiting. -/
inductive Writes (s : State) : Instr → State → Prop where
  | nothing (i : Instr) : Writes s i s
  | register {i : Instr} (d : RegIdx) (v : Word) (hi : i.operands.head? = some (.register, .reg d)) :
      Writes s i (s.setReg d v)
  | ram (a b : Operand) (w v : Word) (ha : resolveAddress s a = .ok (byteOf w)) :
      Writes s (.wmem a b) (s.setRam (s.ram.write2 (byteOf w).toNat (v.setWidth 16)))
  | push (a : Operand) (v : Word) (hs : s.sp ≠ s.config.stackDepthMax) :
      Writes s (.push a) (s.setStack (v.setWidth 16 :: s.stack))
  | call (a : Operand) (hs : s.sp ≠ s.config.stackDepthMax) :
      Writes s (.call a) (s.setStack (returnAddress s :: s.stack))
  | pop (d : RegIdx) (v : Slot) (w : Word) (rest : List Slot) (hs : s.stack = v :: rest) :
      Writes s (.pop (.reg d)) ((s.setStack rest).setReg d w)
  | ret (v : Slot) (rest : List Slot) (hs : s.stack = v :: rest) : Writes s .ret (s.setStack rest)
  | output (a : Operand) (b : Byte) (ho : s.outClosed = false) (hr : hasRoom s.config.outCap s.outQ = true) :
      Writes s (.out a) (s.setOutQ (s.outQ ++ [b]))
  | input (d : RegIdx) (h : Byte) (q : List Byte) (hq : s.inQ = h :: q) :
      Writes s (.inp (.reg d)) ((s.setInQ q).setReg d (h.setWidth 15))

/-- Where an instruction that goes on may leave the pc: at the next instruction, at a word address, or, for a `ret`, at
twice the popped entry (R75). -/
inductive Target (s : State) (i : Instr) : ByteOffset → Prop where
  | next : Target s i (s.nextPc i.operandCount)
  | word (w : Word) : Target s i (byteOf w)
  | ret (v : Slot) (rest : List Slot) (hs : s.stack = v :: rest) : Target s i (BitVec.ofNat 17 (2 * v.toNat))

/-- How an instruction can end: with a fault, by halting with nothing written, by waiting, or by going on with its
writes made. -/
inductive Ends (s : State) (i : Instr) : State → Prop where
  | fault (tr : Trap) (hk : tr.kind ≠ .none) : Ends s i (s.raise tr)
  | halt (hi : i = .halt ∨ i = .ret ∧ s.stack = []) : Ends s i s.halt
  | wait (hi : (∃ a, i = .out a) ∨ ∃ a, i = .inp a) : Ends s i (s.setHeld true)
  | goesOn (s' : State) (p : ByteOffset) (hw : Writes s i s') (hp : Target s i p) : Ends s i (s'.setPc p)

theorem ends_writeUnary {i : Instr} {s t : State} {a b : Operand} {f : Word → Word}
    (hi : i.operands = [(.register, a), (.value, b)]) (h : complete 2 s (writeUnary s a b f) = .next t) :
    Ends s i t := by
  rcases complete_cases h with ⟨tr, he, rfl⟩ | ⟨s', he, rfl⟩ | ⟨s', p, he, rfl⟩ | ⟨s', he, rfl⟩ | ⟨s', he, rfl⟩
  · exact .fault tr (writeUnary_error_kind he)
  · obtain ⟨d, vb, rfl, -, hr⟩ := writeUnary_cases he
    cases hr
    exact .goesOn _ _ (.register d _ (by simp [hi])) (by simpa [Instr.operandCount, hi] using Target.next (i := i))
  all_goals obtain ⟨d, vb, -, -, hr⟩ := writeUnary_cases he; simp at hr

theorem ends_writeBinary {i : Instr} {s t : State} {a b c : Operand} {f : Word → Word → Except Trap Word}
    (hi : i.operands = [(.register, a), (.value, b), (.value, c)])
    (hf : ∀ vb vc tr, f vb vc = .error tr → tr.kind ≠ .none)
    (h : complete 3 s (writeBinary s a b c f) = .next t) : Ends s i t := by
  rcases complete_cases h with ⟨tr, he, rfl⟩ | ⟨s', he, rfl⟩ | ⟨s', p, he, rfl⟩ | ⟨s', he, rfl⟩ | ⟨s', he, rfl⟩
  · exact .fault tr (writeBinary_error_kind (fun vb vc => hf vb vc tr) he)
  · obtain ⟨d, vb, vc, v, rfl, -, -, -, hr⟩ := writeBinary_cases he
    cases hr
    exact .goesOn _ _ (.register d _ (by simp [hi])) (by simpa [Instr.operandCount, hi] using Target.next (i := i))
  all_goals obtain ⟨d, vb, vc, v, -, -, -, -, hr⟩ := writeBinary_cases he; simp at hr

theorem ends_push {s t : State} {a : Operand} (h : execPush a s = .next t) : Ends s (.push a) t := by
  unfold execPush at h
  cases hv : resolveValue s a with
  | error tr =>
    simp only [hv, except_error_bind, complete_error, Host.Outcome.next.injEq] at h
    subst h; exact .fault tr (resolveValue_error_kind hv)
  | ok v =>
    cases hp : s.pushEntry (v.setWidth 16) with
    | error tr =>
      simp only [hv, hp, except_ok_bind, except_error_bind, complete_error, Host.Outcome.next.injEq] at h
      subst h; exact .fault tr (by rw [(pushEntry_eq_error.1 hp).2]; simp)
    | ok s' =>
      simp only [hv, hp, except_ok_bind, complete_next, Host.Outcome.next.injEq] at h
      obtain ⟨hs, rfl⟩ := pushEntry_eq_ok.1 hp
      subst h; exact .goesOn _ _ (.push a v hs) .next

theorem ends_pop {s t : State} {a : Operand} (h : execPop a s = .next t) : Ends s (.pop a) t := by
  unfold execPop at h
  cases hd : resolveRegister a with
  | error tr =>
    simp only [hd, except_error_bind, complete_error, Host.Outcome.next.injEq] at h
    subst h; exact .fault tr (resolveRegister_error_kind hd)
  | ok d =>
    obtain rfl := resolveRegister_eq_ok.1 hd
    cases hs : s.stack with
    | nil =>
      simp only [hs, hd, except_ok_bind, complete_error, Host.Outcome.next.injEq] at h
      subst h; exact .fault _ (by simp)
    | cons v rest =>
      cases hw : wordOfSlot v with
      | error tr =>
        simp only [hs, hd, hw, except_ok_bind, except_error_bind, complete_error, Host.Outcome.next.injEq] at h
        subst h; exact .fault tr (by rw [(wordOfSlot_eq_error.1 hw).2]; simp)
      | ok w =>
        simp only [hs, hd, hw, except_ok_bind, complete_next, Host.Outcome.next.injEq] at h
        subst h; exact .goesOn _ _ (.pop d v w rest hs) .next

theorem ends_jmp {s t : State} {a : Operand} (h : execJmp a s = .next t) : Ends s (.jmp a) t := by
  unfold execJmp at h
  cases ha : resolveAddress s a with
  | error tr =>
    simp only [ha, except_error_bind, complete_error, Host.Outcome.next.injEq] at h
    subst h; exact .fault tr (resolveAddress_error_kind ha)
  | ok p =>
    obtain ⟨w, rfl⟩ := resolveAddress_eq_byteOf ha
    simp only [ha, except_ok_bind, complete_jump, Host.Outcome.next.injEq] at h
    subst h; exact .goesOn _ _ (.nothing _) (.word w)

/-- The two conditional jumps, for either sense of the test. -/
theorem ends_conditional {i : Instr} {s t : State} {a b : Operand} {g : Word → Bool}
    (hi : i.operands = [(.value, a), (.address, b)])
    (h : (complete 2 s do
      let v ← resolveValue s a
      let t ← resolveAddress s b
      .ok (s, jumpIf (g v) t)) = .next t) : Ends s i t := by
  cases ha : resolveValue s a with
  | error tr =>
    simp only [ha, except_error_bind, complete_error, Host.Outcome.next.injEq] at h
    subst h; exact .fault tr (resolveValue_error_kind ha)
  | ok v =>
    cases hb : resolveAddress s b with
    | error tr =>
      simp only [ha, hb, except_ok_bind, except_error_bind, complete_error, Host.Outcome.next.injEq] at h
      subst h; exact .fault tr (resolveAddress_error_kind hb)
    | ok p =>
      obtain ⟨w, rfl⟩ := resolveAddress_eq_byteOf hb
      cases hg : g v <;>
        simp only [ha, hb, hg, jumpIf, except_ok_bind, complete_jump, complete_next, Bool.false_eq_true, if_false,
          if_true, Host.Outcome.next.injEq] at h <;> subst h
      · exact .goesOn _ _ (.nothing _) (by simpa [Instr.operandCount, hi] using Target.next (i := i))
      · exact .goesOn _ _ (.nothing _) (.word w)

theorem ends_call {s t : State} {a : Operand} (h : execCall a s = .next t) : Ends s (.call a) t := by
  unfold execCall at h
  cases ha : resolveAddress s a with
  | error tr =>
    simp only [ha, except_error_bind, complete_error, Host.Outcome.next.injEq] at h
    subst h; exact .fault tr (resolveAddress_error_kind ha)
  | ok p =>
    obtain ⟨w, rfl⟩ := resolveAddress_eq_byteOf ha
    cases hp : s.pushEntry (returnAddress s) with
    | error tr =>
      simp only [ha, hp, except_ok_bind, except_error_bind, complete_error, Host.Outcome.next.injEq] at h
      subst h; exact .fault tr (by rw [(pushEntry_eq_error.1 hp).2]; simp)
    | ok s' =>
      simp only [ha, hp, except_ok_bind, complete_jump, Host.Outcome.next.injEq] at h
      obtain ⟨hs, rfl⟩ := pushEntry_eq_ok.1 hp
      subst h; exact .goesOn _ _ (.call a hs) (.word w)

theorem ends_ret {s t : State} (h : execRet s = .next t) : Ends s .ret t := by
  unfold execRet at h
  cases hs : s.stack with
  | nil =>
    simp only [hs, complete_halt, Host.Outcome.next.injEq] at h
    subst h; exact .halt (.inr ⟨rfl, hs⟩)
  | cons w rest =>
    simp only [hs, complete_jump, Host.Outcome.next.injEq] at h
    subst h; exact .goesOn _ _ (.ret w rest hs) (.ret w rest hs)

theorem ends_rmem {s t : State} {a b : Operand} (h : execRmem a b s = .next t) : Ends s (.rmem a b) t := by
  unfold execRmem at h
  cases hd : resolveRegister a with
  | error tr =>
    simp only [hd, except_error_bind, complete_error, Host.Outcome.next.injEq] at h
    subst h; exact .fault tr (resolveRegister_error_kind hd)
  | ok d =>
    obtain rfl := resolveRegister_eq_ok.1 hd
    cases hb : resolveAddress s b with
    | error tr =>
      simp only [hd, hb, except_ok_bind, except_error_bind, complete_error, Host.Outcome.next.injEq] at h
      subst h; exact .fault tr (resolveAddress_error_kind hb)
    | ok p =>
      cases hw : wordOfSlot (s.ram.read2 p.toNat) with
      | error tr =>
        simp only [hd, hb, hw, except_ok_bind, except_error_bind, complete_error, Host.Outcome.next.injEq] at h
        subst h; exact .fault tr (by rw [(wordOfSlot_eq_error.1 hw).2]; simp)
      | ok w =>
        simp only [hd, hb, hw, except_ok_bind, complete_next, Host.Outcome.next.injEq] at h
        subst h; exact .goesOn _ _ (.register d w rfl) .next

theorem ends_wmem {s t : State} {a b : Operand} (h : execWmem a b s = .next t) : Ends s (.wmem a b) t := by
  unfold execWmem at h
  cases ha : resolveAddress s a with
  | error tr =>
    simp only [ha, except_error_bind, complete_error, Host.Outcome.next.injEq] at h
    subst h; exact .fault tr (resolveAddress_error_kind ha)
  | ok p =>
    obtain ⟨w, rfl⟩ := resolveAddress_eq_byteOf ha
    cases hb : resolveValue s b with
    | error tr =>
      simp only [ha, hb, except_ok_bind, except_error_bind, complete_error, Host.Outcome.next.injEq] at h
      subst h; exact .fault tr (resolveValue_error_kind hb)
    | ok v =>
      simp only [ha, hb, except_ok_bind, complete_next, Host.Outcome.next.injEq] at h
      subst h; exact .goesOn _ _ (.ram a b w v ha) .next

theorem ends_out {s t : State} {a : Operand} (h : execOut a s = .next t) : Ends s (.out a) t := by
  unfold execOut at h
  cases ha : resolveValue s a with
  | error tr =>
    simp only [ha, except_error_bind, complete_error, Host.Outcome.next.injEq] at h
    subst h; exact .fault tr (resolveValue_error_kind ha)
  | ok v =>
    cases ho : s.outByte (v.setWidth 8) with
    | error tr =>
      simp only [ha, ho, except_ok_bind, except_error_bind, complete_error, Host.Outcome.next.injEq] at h
      subst h; exact .fault tr (by rw [(outByte_eq_error.1 ho).2]; simp)
    | ok r =>
      obtain ⟨hc, hr⟩ := outByte_eq_ok.1 ho
      cases hroom : hasRoom s.config.outCap s.outQ <;> simp only [hroom, if_true, Bool.false_eq_true, if_false] at hr <;>
        subst hr <;>
        simp only [ha, ho, except_ok_bind, complete_next, complete_wait, Host.Outcome.next.injEq] at h <;> subst h
      · exact .wait (.inl ⟨a, rfl⟩)
      · exact .goesOn _ _ (.output a _ hc hroom) .next

theorem ends_in {s t : State} {a : Operand} (h : execIn a s = .next t) : Ends s (.inp a) t := by
  unfold execIn at h
  cases hd : resolveRegister a with
  | error tr =>
    simp only [hd, except_error_bind, complete_error, Host.Outcome.next.injEq] at h
    subst h; exact .fault tr (resolveRegister_error_kind hd)
  | ok d =>
    obtain rfl := resolveRegister_eq_ok.1 hd
    cases hi : s.inByte with
    | error tr =>
      simp only [hd, hi, except_ok_bind, except_error_bind, complete_error, Host.Outcome.next.injEq] at h
      subst h; exact .fault tr (by rw [(inByte_eq_error.1 hi).2.2]; simp)
    | ok r =>
      cases r with
      | none =>
        simp only [hd, hi, except_ok_bind, complete_wait, Host.Outcome.next.injEq] at h
        subst h; exact .wait (.inr ⟨_, rfl⟩)
      | some p =>
        obtain ⟨x, s'⟩ := p
        obtain ⟨q, hq, rfl⟩ := inByte_eq_some.1 hi
        simp only [hd, hi, except_ok_bind, complete_next, Host.Outcome.next.injEq] at h
        subst h; exact .goesOn _ _ (.input d x q hq) .next

/-- Every instruction ends in one of these ways. -/
theorem exec_ends {i : Instr} {s t : State} (h : exec i s = .next t) : Ends s i t := by
  cases i with
  | halt => cases h; exact .halt (.inl rfl)
  | noop => cases h; exact .goesOn _ _ (.nothing _) .next
  | set a b => exact ends_writeUnary rfl h
  | not a b => exact ends_writeUnary rfl h
  | eq a b c => exact ends_writeBinary rfl (by simp) h
  | gt a b c => exact ends_writeBinary rfl (by simp) h
  | add a b c => exact ends_writeBinary rfl (by simp) h
  | mult a b c => exact ends_writeBinary rfl (by simp) h
  | and a b c => exact ends_writeBinary rfl (by simp) h
  | or a b c => exact ends_writeBinary rfl (by simp) h
  | mod a b c =>
    refine ends_writeBinary rfl (fun vb vc tr ht => ?_) h
    unfold aluMod at ht
    split at ht <;> simp at ht
    subst ht; simp
  | push a => exact ends_push h
  | pop a => exact ends_pop h
  | jmp a => exact ends_jmp h
  | jt a b => exact ends_conditional (g := isNonZero) rfl h
  | jf a b => exact ends_conditional (g := fun v => !isNonZero v) rfl h
  | call a => exact ends_call h
  | ret => exact ends_ret h
  | rmem a b => exact ends_rmem h
  | wmem a b => exact ends_wmem h
  | out a => exact ends_out h
  | inp a => exact ends_in h

end Sys2Proof.Machine
end

