-- ==== Sys2Proof/Laws/Engine.lean ====
section
/-!
SUPPORT. The fetch, the engine's step and the turns, each said once.
-/

namespace Sys2Proof.Machine

@[simp] theorem Memory.bytes_length (m : Memory) (a n : Nat) : (m.bytes a n).length = n := by
  induction n generalizing a with
  | zero => rfl
  | succ n ih => simp [Memory.bytes, ih]

/-- A fetched instruction starts at an even pc and lies inside RAM (R61). -/
theorem fetch_ok {s : State} {i : Instr} (h : s.fetch = .ok i) :
    s.pc.toNat % 2 = 0 ∧ s.pc.toNat + 2 * i.operandCount ≤ 65534 := by
  unfold State.fetch lastSlot at h
  split at h
  · cases h
  · split at h
    · cases h
    · split at h
      · rename_i hodd hend j rest hd
        cases h
        have hlen := decode_length hd
        simp only [State.fetchBytes, Memory.bytes_length, maxInstrBytes, ramBytes] at hlen
        omega
      all_goals cases h

/-- A fetch that faults names a kind. -/
theorem fetch_error_kind {s : State} {t : Trap} (h : s.fetch = .error t) : t.kind ≠ .none := by
  unfold State.fetch at h
  split at h
  · cases h; simp
  · split at h
    · cases h; simp
    · split at h <;> cases h <;> simp

/-- A stopped engine's step changes nothing (R61). -/
theorem engineStep_stopped {s : State} (h : s.status ≠ .running) : engineStep s = .next s := by
  unfold engineStep
  cases hs : s.status <;> simp_all

/-- A RUNNING engine's step begins with the resize check and then fetches (R39, R61). -/
theorem engineStep_running {s : State} (h : s.status = .running) :
    engineStep s = runInstruction s.beginStep := by
  unfold engineStep
  rw [h]

theorem runInstruction_fault {s : State} {t : Trap} (h : s.fetch = .error t) :
    runInstruction s = .next (s.raise t) := by
  rw [runInstruction, h]

theorem runInstruction_exec {s : State} {i : Instr} (h : s.fetch = .ok i) : runInstruction s = exec i s := by
  rw [runInstruction, h]

/-- What one step of the engine can do: nothing when stopped; when RUNNING, after the resize check, a fetch fault or
one instruction. -/
theorem engineStep_cases {s t : State} (h : engineStep s = .next t) :
    (s.status ≠ .running ∧ t = s) ∨
    (s.status = .running ∧ ∃ tr, tr.kind ≠ .none ∧ s.beginStep.fetch = .error tr ∧ t = s.beginStep.raise tr) ∨
    (s.status = .running ∧ ∃ i, s.beginStep.fetch = .ok i ∧ Ends s.beginStep i t) := by
  by_cases hs : s.status = .running
  · rw [engineStep_running hs] at h
    cases hf : s.beginStep.fetch with
    | error tr =>
      rw [runInstruction_fault hf] at h
      cases h
      exact .inr (.inl ⟨hs, tr, fetch_error_kind hf, rfl, rfl⟩)
    | ok i =>
      rw [runInstruction_exec hf] at h
      exact .inr (.inr ⟨hs, i, rfl, exec_ends h⟩)
  · rw [engineStep_stopped hs] at h
    cases h
    exact .inl ⟨hs, rfl⟩

/-- The turns (R106). -/
@[simp] theorem step_engine_last {s : State} (h : s.schedule = []) : step s = engineStep s := by
  unfold step takeTurn; rw [h]

@[simp] theorem step_engine_turn {s : State} {rest : List Turn} (h : s.schedule = .engine :: rest) :
    step s = engineStep (s.setSchedule rest) := by
  unfold step takeTurn; rw [h]

@[simp] theorem step_host_turn {s : State} {a : HostAction} {rest : List Turn} (h : s.schedule = .host a :: rest) :
    step s = hostAct a (s.setSchedule rest) := by
  unfold step takeTurn; rw [h]

/-- When a byte is offered to the output channel (R92, R108). -/
theorem outOffer_eq_some {s : State} {b : Byte} :
    s.outOffer = some b ↔
      s.outClosed = false ∧ s.status = .running ∧
        ∃ a v, s.fetch = .ok (.out a) ∧ resolveValue s a = .ok v ∧ b = v.setWidth 8 := by
  unfold State.outOffer
  cases hc : s.outClosed with
  | true => simp
  | false =>
    simp only [Bool.false_eq_true, if_false, true_and]
    split
    · rename_i a hs hf
      cases hv : resolveValue s a <;> simp [hs, hf, hv, eq_comm]
    · rename_i hn
      simp only [false_iff, reduceCtorEq]
      rintro ⟨hs, a, v, hf, -, -⟩
      exact hn a hs hf

/-- When the engine is ready for an input byte (R93, R108). -/
theorem inReady_eq_true {s : State} :
    s.inReady = true ↔ s.status = .running ∧ ∃ d, s.fetch = .ok (.inp (.reg d)) := by
  unfold State.inReady
  split
  · rename_i a hs hf
    cases a <;> simp [hs, hf]
  · rename_i hn
    simp only [false_iff, Bool.false_eq_true]
    rintro ⟨hs, d, hf⟩
    exact hn (.reg d) hs hf

/-- What a host act can do (R106). -/
theorem hostAct_cases {a : HostAction} {s t : State} (h : hostAct a s = .next t) :
    (a = .reset ∧ t = s.applyReset) ∨
    (a = .takeOutput ∧ ∃ b q, s.outQ = b :: q ∧ t = s.setOutQ q) ∨
    (∃ b, a = .putInput b ∧ s.inClosed = false ∧ hasRoom s.config.inCap s.inQ = true ∧
      t = s.setInQ (s.inQ ++ [b])) ∨
    (a = .closeOutput ∧ t = s.setOutClosed true) ∨ (a = .closeInput ∧ t = s.setInClosed true) := by
  cases a with
  | reset => cases h; simp
  | takeOutput =>
    cases hq : s.outQ with
    | nil => simp [hostAct, hq] at h
    | cons b q =>
      simp only [hostAct, hq, Host.Outcome.next.injEq] at h
      exact .inr (.inl ⟨rfl, b, q, rfl, h.symm⟩)
  | putInput b =>
    cases hc : s.inClosed with
    | true => simp [hostAct, hc] at h
    | false =>
      cases hr : hasRoom s.config.inCap s.inQ with
      | false => simp [hostAct, hc, hr] at h
      | true =>
        simp only [hostAct, hc, hr, Bool.false_eq_true, if_false, if_true, Host.Outcome.next.injEq] at h
        exact .inr (.inr (.inl ⟨b, rfl, rfl, rfl, h.symm⟩))
  | closeOutput => cases h; simp
  | closeInput => cases h; simp

end Sys2Proof.Machine
end

