-- ==== Sys2Proof/Laws/PerInstr.lean ====
section
/-!
SUPPORT. Facts about each instruction as syntax, one lemma a constructor.
-/

namespace Sys2Proof.Laws.EncodedLength

/-- An instruction's encoding is two bytes for the opcode slot and two for each of its at most three operands, and its
opcode is one of the 22 (R50, R51, R58, R60). -/
def Statement (i : Instr) : Prop :=
  (encode i).length = 2 * (1 + i.operandCount) ∧ i.operandCount ≤ 3 ∧ i.opcode.toNat ≤ 21

theorem halt : Statement (.halt) :=
  ⟨rfl, Nat.le_of_ble_eq_true rfl, Nat.le_of_ble_eq_true rfl⟩

theorem set (a b : Operand) : Statement (.set a b) :=
  ⟨rfl, Nat.le_of_ble_eq_true rfl, Nat.le_of_ble_eq_true rfl⟩

theorem push (a : Operand) : Statement (.push a) :=
  ⟨rfl, Nat.le_of_ble_eq_true rfl, Nat.le_of_ble_eq_true rfl⟩

theorem pop (a : Operand) : Statement (.pop a) :=
  ⟨rfl, Nat.le_of_ble_eq_true rfl, Nat.le_of_ble_eq_true rfl⟩

theorem eq (a b c : Operand) : Statement (.eq a b c) :=
  ⟨rfl, Nat.le_of_ble_eq_true rfl, Nat.le_of_ble_eq_true rfl⟩

theorem gt (a b c : Operand) : Statement (.gt a b c) :=
  ⟨rfl, Nat.le_of_ble_eq_true rfl, Nat.le_of_ble_eq_true rfl⟩

theorem jmp (a : Operand) : Statement (.jmp a) :=
  ⟨rfl, Nat.le_of_ble_eq_true rfl, Nat.le_of_ble_eq_true rfl⟩

theorem jt (a b : Operand) : Statement (.jt a b) :=
  ⟨rfl, Nat.le_of_ble_eq_true rfl, Nat.le_of_ble_eq_true rfl⟩

theorem jf (a b : Operand) : Statement (.jf a b) :=
  ⟨rfl, Nat.le_of_ble_eq_true rfl, Nat.le_of_ble_eq_true rfl⟩

theorem add (a b c : Operand) : Statement (.add a b c) :=
  ⟨rfl, Nat.le_of_ble_eq_true rfl, Nat.le_of_ble_eq_true rfl⟩

theorem mult (a b c : Operand) : Statement (.mult a b c) :=
  ⟨rfl, Nat.le_of_ble_eq_true rfl, Nat.le_of_ble_eq_true rfl⟩

theorem mod (a b c : Operand) : Statement (.mod a b c) :=
  ⟨rfl, Nat.le_of_ble_eq_true rfl, Nat.le_of_ble_eq_true rfl⟩

theorem and (a b c : Operand) : Statement (.and a b c) :=
  ⟨rfl, Nat.le_of_ble_eq_true rfl, Nat.le_of_ble_eq_true rfl⟩

theorem or (a b c : Operand) : Statement (.or a b c) :=
  ⟨rfl, Nat.le_of_ble_eq_true rfl, Nat.le_of_ble_eq_true rfl⟩

theorem not (a b : Operand) : Statement (.not a b) :=
  ⟨rfl, Nat.le_of_ble_eq_true rfl, Nat.le_of_ble_eq_true rfl⟩

theorem rmem (a b : Operand) : Statement (.rmem a b) :=
  ⟨rfl, Nat.le_of_ble_eq_true rfl, Nat.le_of_ble_eq_true rfl⟩

theorem wmem (a b : Operand) : Statement (.wmem a b) :=
  ⟨rfl, Nat.le_of_ble_eq_true rfl, Nat.le_of_ble_eq_true rfl⟩

theorem call (a : Operand) : Statement (.call a) :=
  ⟨rfl, Nat.le_of_ble_eq_true rfl, Nat.le_of_ble_eq_true rfl⟩

theorem ret : Statement (.ret) :=
  ⟨rfl, Nat.le_of_ble_eq_true rfl, Nat.le_of_ble_eq_true rfl⟩

theorem out (a : Operand) : Statement (.out a) :=
  ⟨rfl, Nat.le_of_ble_eq_true rfl, Nat.le_of_ble_eq_true rfl⟩

theorem inp (a : Operand) : Statement (.inp a) :=
  ⟨rfl, Nat.le_of_ble_eq_true rfl, Nat.le_of_ble_eq_true rfl⟩

theorem noop : Statement (.noop) :=
  ⟨rfl, Nat.le_of_ble_eq_true rfl, Nat.le_of_ble_eq_true rfl⟩

end Sys2Proof.Laws.EncodedLength
end

