-- ==== Sys2Proof/Tests/Slice0.lean ====
section
/-!
SUPPORT. The model's own tests: terms that WellFormed refuses, words written out from the spec's encodings, one step of each
instruction with the results of spec/95_test_vectors.md (L1, L2), and a witness for the hypotheses of each obligation.
-/

namespace Sys2Proof.Tests

open Sys2Proof Sys2Proof.Machine Sys2Proof.Spec

/-! ### Small states -/

/-- The start state of spec/95 L2.1. -/
def start : State := { State.reset with regs := #v[10, 20, 30, 40, 50, 60, 70, 32767] }

/-- A state whose pc lies at `pc` and whose RAM holds only `bytes`, from there on. -/
def atPc (s : State) (pc : ByteOffset) (bytes : List Byte) : State :=
  { s with pc := pc, ram := Memory.writeBytes [] pc.toNat bytes }

/-- The state after one step, if there is one. -/
def stateAfter : StepResult → Option State
  | .next s => some s
  | .fault _ => none
  | .refused _ => none

/-- What a test looks at in the state after one step. -/
def look {α : Type} (s : State) (f : State → α) : Option α := (stateAfter (step s)).map f

/-- Register `r` and the pc after one step, as numbers. -/
def regPc (s : State) (r : RegIdx) : Option (Nat × Nat) := look s fun t => ((t.getReg r).toNat, t.pc.toNat)

/-- The fault record (kind code, ip, value) and the pc after one step. -/
def record (s : State) : Option ((Nat × Nat × Nat) × Nat) :=
  look s fun t => ((t.faultKind.code.toNat, t.faultIp.toNat, t.faultValue.toNat), t.pc.toNat)

/-- The stack, newest entry first, and the pc after one step. -/
def stackPc (s : State) : Option (List Nat × Nat) := look s fun t => (t.stack.map (·.toNat), t.pc.toNat)

/-! ### WellFormed refuses -/

theorem test_wf_refuses_marked_literal : (Instr.set (.invalid 32767) (.lit 0)).wf = false := by decide

theorem test_wf_refuses_marked_register : (Instr.set (.reg 0) (.invalid 32775)).wf = false := by decide

theorem test_wf_refuses_third_operand : (Instr.add (.reg 0) (.lit 1) (.invalid 0)).wf = false := by decide

theorem test_wf_accepts_first_invalid : (Instr.push (.invalid 32776)).wf = true := by decide

theorem test_operands_refuse_literal_destination :
    (Instr.set (.lit 5) (.lit 1)).operandsAccepted = false := by decide

theorem test_operands_refuse_invalid_destination :
    (Instr.pop (.invalid 40000)).operandsAccepted = false := by decide

theorem test_operands_refuse_invalid_value : (Instr.push (.invalid 32776)).operandsAccepted = false := by decide

theorem test_operands_refuse_invalid_address :
    (Instr.jt (.lit 0) (.invalid 40000)).operandsAccepted = false := by decide

theorem test_config_refuses_depth_zero :
    ({ Config.default with stackDepthMax := 0 } : Config).wf = false := by decide

theorem test_config_refuses_depth_65536 :
    ({ Config.default with stackDepthMax := 65536 } : Config).wf = false := by decide

theorem test_config_refuses_capacity_zero :
    ({ Config.default with outCap := some 0 } : Config).wf = false ∧
    ({ Config.default with inCap := some 0 } : Config).wf = false := by decide

/-! ### Decoding: bytes written out from spec/30 R51, R58 and the byte strings of spec/40 to spec/45 and spec/95 -/

theorem test_decode_halt : decode [0x00, 0x00] = .ok (.halt, []) := by decide

theorem test_decode_set : decode [0x01, 0x00, 0x07, 0x80, 0xff, 0x7f] = .ok (.set (.reg 7) (.lit 32767), []) := by
  decide

theorem test_decode_push : decode [0x02, 0x00, 0x07, 0x00] = .ok (.push (.lit 7), []) := by decide

theorem test_decode_pop : decode [0x03, 0x00, 0x02, 0x80] = .ok (.pop (.reg 2), []) := by decide

theorem test_decode_eq :
    decode [0x04, 0x00, 0x04, 0x80, 0x03, 0x80, 0x01, 0x80] = .ok (.eq (.reg 4) (.reg 3) (.reg 1), []) := by
  decide

theorem test_decode_gt :
    decode [0x05, 0x00, 0x00, 0x80, 0x05, 0x00, 0x03, 0x00] = .ok (.gt (.reg 0) (.lit 5) (.lit 3), []) := by
  decide

theorem test_decode_jmp : decode [0x06, 0x00, 0xfe, 0x7f] = .ok (.jmp (.lit 32766), []) := by decide

theorem test_decode_jt : decode [0x07, 0x00, 0x01, 0x80, 0x0f, 0x00] = .ok (.jt (.reg 1) (.lit 15), []) := by
  decide

theorem test_decode_jf : decode [0x08, 0x00, 0x00, 0x80, 0x64, 0x00] = .ok (.jf (.reg 0) (.lit 100), []) := by
  decide

theorem test_decode_add :
    decode [0x09, 0x00, 0x01, 0x80, 0x01, 0x80, 0xff, 0x7f] = .ok (.add (.reg 1) (.reg 1) (.lit 32767), []) := by
  decide

theorem test_decode_mult :
    decode [0x0a, 0x00, 0x01, 0x80, 0x39, 0x30, 0x39, 0x30] =
      .ok (.mult (.reg 1) (.lit 12345) (.lit 12345), []) := by decide

theorem test_decode_mod :
    decode [0x0b, 0x00, 0x06, 0x80, 0x01, 0x80, 0xe8, 0x03] = .ok (.mod (.reg 6) (.reg 1) (.lit 1000), []) := by
  decide

theorem test_decode_and :
    decode [0x0c, 0x00, 0x00, 0x80, 0x0f, 0x7f, 0xff, 0x00] =
      .ok (.and (.reg 0) (.lit 0x7f0f) (.lit 0x00ff), []) := by decide

theorem test_decode_or :
    decode [0x0d, 0x00, 0x00, 0x80, 0x00, 0x0f, 0xf0, 0x00] =
      .ok (.or (.reg 0) (.lit 0x0f00) (.lit 0x00f0), []) := by decide

theorem test_decode_not : decode [0x0e, 0x00, 0x02, 0x80, 0x01, 0x80] = .ok (.not (.reg 2) (.reg 1), []) := by
  decide

theorem test_decode_rmem : decode [0x0f, 0x00, 0x00, 0x80, 0x64, 0x00] = .ok (.rmem (.reg 0) (.lit 100), []) := by
  decide

theorem test_decode_wmem :
    decode [0x10, 0x00, 0x64, 0x00, 0x39, 0x30] = .ok (.wmem (.lit 100) (.lit 12345), []) := by decide

theorem test_decode_call : decode [0x11, 0x00, 0x11, 0x00] = .ok (.call (.lit 17), []) := by decide

theorem test_decode_ret : decode [0x12, 0x00] = .ok (.ret, []) := by decide

theorem test_decode_out : decode [0x13, 0x00, 0x41, 0x01] = .ok (.out (.lit 321), []) := by decide

theorem test_decode_in : decode [0x14, 0x00, 0x07, 0x80] = .ok (.inp (.reg 7), []) := by decide

/-- spec/95 L2.2: slot 0x0115 runs as `noop`. -/
theorem test_decode_noop_any_high_byte : decode [0x15, 0x01] = .ok (.noop, []) := by decide

/-- R53: 32775 is the last register, 32776 the first invalid operand. -/
theorem test_decode_operand_boundary :
    decode [0x01, 0x00, 0x07, 0x80, 0x08, 0x80] = .ok (.set (.reg 7) (.invalid 32776), []) := by decide

theorem test_decode_illegal_22 : decode [0x16, 0x00] = .error (.illegalOpcode 22) := by decide

theorem test_decode_illegal_255 : decode [0xff, 0x00] = .error (.illegalOpcode 255) := by decide

theorem test_decode_truncated : decode [0x09, 0x00, 0x00, 0x80] = .error (.truncated 3) := by decide

/-- R51, R64: the encoder lays the slots out low byte first. -/
theorem test_encode_add :
    encode (.add (.reg 2) (.reg 0) (.reg 1)) = [0x09, 0x00, 0x02, 0x80, 0x00, 0x80, 0x01, 0x80] := by decide

/-- Bit numbers of spec/opcode_table.json: operand a of `set` is bits 31..16, operand b bits 47..32. -/
theorem test_decode_table_word : decodeTableWord 48 0x000580000001 = some (.set (.reg 0) (.lit 5)) := by decide

theorem test_decode_table_word_zero_operands : decodeTableWord 16 0x0009 = some (.add (.lit 0) (.lit 0) (.lit 0)) := by
  decide

theorem test_fetch_word_runs : regPc (State.reset.withFetchWord 48 0x000580000001) 0 = some (5, 6) := by decide

/-- A state that waits elsewhere, with a host turn due, still runs the placed word next. -/
theorem test_fetch_word_runs_anywhere :
    regPc (({ start with pc := 32769, status := .halted, held := true, schedule := [.host .reset] } : State).withFetchWord
      48 0x000580000001) 0 = some (5, 6) := by decide

/-! ### Fetch (spec/95 L2.2) -/

theorem test_fetch_illegal_opcode : record (atPc start 0 [0x16, 0x00]) = some ((6, 0, 22), 0) := by decide

theorem test_fetch_odd_pc : record (atPc start 1 []) = some ((6, 1, 1), 1) := by decide

theorem test_fetch_past_ram : record (atPc start 65536 []) = some ((8, 65536, 65536), 65536) := by decide

theorem test_fetch_operands_past_ram :
    record (atPc start 65532 [0x09, 0x00, 0x00, 0x80]) = some ((8, 65532, 65538), 65532) := by decide

theorem test_fetch_opcode_before_length :
    record (atPc start 65532 [0x16, 0x00]) = some ((6, 65532, 22), 65532) := by decide

theorem test_fetch_out_at_last_slot : record (atPc start 65534 [0x13, 0x00]) = some ((8, 65534, 65536), 65534) := by
  decide

/-! ### One step of each instruction (spec/95 L2.3 to L2.8) -/

theorem test_set_copies_register :
    regPc (({ start with regs := start.regs.set 2 9 } : State).placeBytes [0x01, 0x00, 0x01, 0x80, 0x02, 0x80]) 1 =
      some (9, 6) := by decide

theorem test_set_checks_destination_first :
    record (start.placeBytes [0x01, 0x00, 0x05, 0x00, 0x40, 0x9c]) = some ((3, 0, 5), 0) := by decide

theorem test_push : stackPc (start.placeBytes [0x02, 0x00, 0x07, 0x00]) = some ([7], 4) := by decide

theorem test_push_overflow :
    record (({ start with config := { Config.default with stackDepthMax := 2 }, stack := [2, 1] } : State).placeBytes
      [0x02, 0x00, 0x03, 0x00]) = some ((9, 0, 3), 0) := by decide

theorem test_pop : regPc (({ start with stack := [7] } : State).placeBytes [0x03, 0x00, 0x02, 0x80]) 2 = some (7, 4) := by
  decide

theorem test_pop_return_address :
    record (({ start with stack := [32768] } : State).placeBytes [0x03, 0x00, 0x00, 0x80]) =
      some ((10, 0, 32768), 0) := by decide

theorem test_eq_source_is_destination :
    regPc (State.reset.placeBytes [0x04, 0x00, 0x01, 0x80, 0x01, 0x80, 0x00, 0x00]) 1 = some (1, 8) := by decide

theorem test_eq_b_before_c :
    record (start.placeBytes [0x04, 0x00, 0x00, 0x80, 0x08, 0x80, 0x40, 0x9c]) = some ((2, 0, 32776), 0) := by decide

theorem test_gt_unsigned :
    regPc (start.placeBytes [0x05, 0x00, 0x00, 0x80, 0xff, 0x7f, 0x00, 0x00]) 0 = some (1, 8) := by decide

theorem test_gt_equal : regPc (start.placeBytes [0x05, 0x00, 0x00, 0x80, 0x05, 0x00, 0x05, 0x00]) 0 = some (0, 8) := by
  decide

theorem test_jmp : look (start.placeBytes [0x06, 0x00, 0x10, 0x00]) (·.pc.toNat) = some 32 := by decide

theorem test_jmp_invalid : record (start.placeBytes [0x06, 0x00, 0x08, 0x80]) = some ((1, 0, 32776), 0) := by decide

theorem test_jt : look (start.placeBytes [0x07, 0x00, 0x01, 0x00, 0x0a, 0x00]) (·.pc.toNat) = some 20 := by decide

/-- Decision D7: the target is checked although the jump is not taken. -/
theorem test_jt_untaken_invalid :
    record (start.placeBytes [0x07, 0x00, 0x00, 0x00, 0x40, 0x9c]) = some ((1, 0, 40000), 0) := by decide

theorem test_jf : look (start.placeBytes [0x08, 0x00, 0x00, 0x00, 0x0a, 0x00]) (·.pc.toNat) = some 20 := by decide

theorem test_jf_not_taken :
    look (start.placeBytes [0x08, 0x00, 0x01, 0x00, 0x0a, 0x00]) (·.pc.toNat) = some 6 := by decide

theorem test_call : stackPc (atPc start 12 [0x11, 0x00, 0x11, 0x00]) = some ([8], 34) := by decide

theorem test_call_at_end_of_ram : stackPc (atPc start 65532 [0x11, 0x00, 0x0a, 0x00]) = some ([32768], 20) := by decide

theorem test_ret : stackPc (({ start with stack := [8] } : State).placeBytes [0x12, 0x00]) = some ([], 16) := by decide

theorem test_ret_empty_halts :
    look (start.placeBytes [0x12, 0x00]) (fun t => (t.status, t.pc.toNat, t.faultKind)) =
      some (.halted, 32769, .none) := by decide

theorem test_add : regPc (start.placeBytes [0x09, 0x00, 0x02, 0x80, 0x00, 0x80, 0x01, 0x80]) 2 = some (30, 8) := by
  decide

theorem test_add_wraps :
    regPc (start.placeBytes [0x09, 0x00, 0x00, 0x80, 0xff, 0x7f, 0xff, 0x7f]) 0 = some (32766, 8) := by decide

theorem test_mult :
    regPc (start.placeBytes [0x0a, 0x00, 0x01, 0x80, 0x39, 0x30, 0x39, 0x30]) 1 = some (27825, 8) := by decide

theorem test_mult_largest :
    regPc (start.placeBytes [0x0a, 0x00, 0x00, 0x80, 0xff, 0x7f, 0xff, 0x7f]) 0 = some (1, 8) := by decide

theorem test_mod : regPc (start.placeBytes [0x0b, 0x00, 0x00, 0x80, 0x0a, 0x00, 0x03, 0x00]) 0 = some (1, 8) := by
  decide

theorem test_mod_zero :
    record (start.placeBytes [0x0b, 0x00, 0x00, 0x80, 0x07, 0x00, 0x00, 0x00]) = some ((7, 0, 0), 0) := by decide

theorem test_and : regPc (start.placeBytes [0x0c, 0x00, 0x00, 0x80, 0x0f, 0x7f, 0xff, 0x00]) 0 = some (15, 8) := by
  decide

theorem test_or : regPc (start.placeBytes [0x0d, 0x00, 0x00, 0x80, 0x00, 0x0f, 0xf0, 0x00]) 0 = some (4080, 8) := by
  decide

theorem test_or_disjoint :
    regPc (start.placeBytes [0x0d, 0x00, 0x00, 0x80, 0x55, 0x55, 0xaa, 0x2a]) 0 = some (32767, 8) := by decide

theorem test_not : regPc (start.placeBytes [0x0e, 0x00, 0x00, 0x80, 0x55, 0x55]) 0 = some (10922, 6) := by decide

theorem test_not_zero : regPc (start.placeBytes [0x0e, 0x00, 0x00, 0x80, 0x00, 0x00]) 0 = some (32767, 6) := by decide

theorem test_rmem :
    regPc (({ start with ram := [(200, 0x39), (201, 0x30)] } : State).placeBytes
      [0x0f, 0x00, 0x00, 0x80, 0x64, 0x00]) 0 = some (12345, 6) := by decide

theorem test_rmem_word_out_of_range :
    record (start.placeBytes [0x0f, 0x00, 0x00, 0x80, 0x01, 0x00]) = some ((10, 0, 32768), 0) := by decide

theorem test_wmem :
    look (start.placeBytes [0x10, 0x00, 0x64, 0x00, 0x39, 0x30])
      (fun t => (t.ram.read 200, t.ram.read 201, t.pc.toNat)) = some (0x39, 0x30, 6) := by decide

/-- spec/95 L2.7: the last word of RAM. -/
theorem test_wmem_last_word :
    look (start.placeBytes [0x10, 0x00, 0xff, 0x7f, 0x01, 0x00])
      (fun t => (t.ram.read 65534, t.ram.read 65535)) = some (1, 0) := by decide

theorem test_halt :
    look (start.placeBytes [0x00, 0x05]) (fun t => (t.status, t.pc.toNat)) = some (.halted, 32769) := by decide

theorem test_noop : look (atPc start 65534 [0x15, 0x00]) (·.pc.toNat) = some 65536 := by decide

theorem test_out_low_byte :
    look (start.placeBytes [0x13, 0x00, 0x41, 0x01]) (fun t => (t.outQ, t.pc.toNat)) = some ([0x41], 4) := by decide

theorem test_out_full_waits :
    look (({ start with config := { Config.default with outCap := some 1 }, outQ := [0x41] } : State).placeBytes
      [0x13, 0x00, 0x42, 0x00]) (fun t => (t.outQ, t.pc.toNat, t.status, t.held)) =
      some ([0x41], 0, .running, true) := by decide

theorem test_in : regPc (({ start with inQ := [0xff] } : State).placeBytes [0x14, 0x00, 0x00, 0x80]) 0 = some (255, 4) := by
  decide

/-- Decision D16: a closed channel still delivers what it holds. -/
theorem test_in_closed_delivers :
    look (({ start with inQ := [0x41], inClosed := true } : State).placeBytes [0x14, 0x00, 0x00, 0x80])
      (fun t => ((t.getReg 0).toNat, t.inQ)) = some (65, []) := by decide

/-! ### The host's turns (R106; spec/95 L2.10, F8) -/

/-- A waiting `in` at pc 0. -/
def waiting : State := { State.reset with ram := [(0, 0x14), (3, 0x80)], held := true }

theorem test_host_input_ends_wait :
    ((stateAfter (step { waiting with schedule := [.host (.putInput 7)] })).bind fun t => regPc t 0) =
      some (7, 4) := by decide

theorem test_host_close_ends_wait :
    ((stateAfter (step { waiting with schedule := [.host .closeInput] })).bind record) = some ((5, 0, 0), 0) := by decide

theorem test_host_reset_abandons_wait :
    look { waiting with pc := 10, outQ := [0x41], outClosed := true, schedule := [.host .reset] }
      (fun t => (t.held, t.pc.toNat, t.outQ, t.outClosed)) = some (false, 0, [0x41], true) := by decide

/-- What the host sees of a waiting `in` (R108). -/
theorem test_ports_of_waiting_in :
    (waiting.ports.inReady, waiting.ports.inOffer, waiting.ports.outOffer, waiting.ports.status) =
      (true, none, none, 0) := by decide

theorem test_ports_of_out : (start.placeBytes [0x13, 0x00, 0x41, 0x01]).ports.outOffer = some 0x41 := by decide

/-- R89, R108: a closed channel with room is offered no byte; spec/95 L2.8: `out 321` faults there. -/
theorem test_ports_of_out_closed :
    (({ start with outClosed := true } : State).placeBytes [0x13, 0x00, 0x41, 0x01]).ports.outOffer = none ∧
    record (({ start with outClosed := true } : State).placeBytes [0x13, 0x00, 0x41, 0x01]) = some ((5, 0, 65), 0) := by
  decide

/-! ### The resize controller (spec/95 L2.9) -/

theorem test_resize_grows :
    (resizedLen 127 256, resizedLen 128 256, resizedLen 256 512, resizedLen 16384 32768) =
      (256, 512, 1024, 65536) := by decide

theorem test_resize_shrinks :
    (resizedLen 128 512, resizedLen 127 512, resizedLen 255 1024, resizedLen 64 256, resizedLen 32767 65536) =
      (512, 256, 512, 256, 65536) := by decide

/-! ### The assembler (R64) -/

theorem test_assembler_reads_operands :
    readStatement "add r2,r0, 0x7fff".toList = some (.instr "add" [.reg 2, .reg 0, .lit 32767]) := by decide

theorem test_assembler_reads_word : readStatement ".word 40000".toList = some (.word 40000) := by decide

theorem test_assembler_refuses_big_literal : readStatement "push 32768".toList = none := by decide

/-- spec/95 L3 Program 2, words 12 to 15, with a label for the loop's head. -/
theorem test_assembler_label :
    assemble [⟨["top"], .instr "jt" [.reg 1, .label "top"]⟩, ⟨[], .instr "halt" []⟩] =
      some [0x07, 0x00, 0x01, 0x80, 0x00, 0x00, 0x00, 0x00] := by decide

/-! ### Witnesses: the hypotheses of each obligation can be met -/

theorem witness_DecodeAfterEncodeReturnsInstruction :
    (Instr.add (.lit 32767) (.reg 7) (.invalid 65535)).wf = true := by decide

theorem witness_DecodedBytesAreAnEncoding :
    decode [0x15, 0x01, 0xaa] = .ok (.noop, [0xaa]) := by decide

theorem witness_IllegalOpcodesAreTwentyTwoAndAbove : 22 ≤ (22 : Byte).toNat ∧ (21 : Byte).toNat ≤ 21 := by decide

theorem witness_LengthIsAFunctionOfTheOpcode :
    decode ([0x02] ++ [0x00, 0x07, 0x00, 0x12]) = .ok (.push (.lit 7), [0x12]) := by decide

theorem witness_OperandClassFollowsRawValue :
    (32767 : Slot).toNat ≤ 32767 ∧
    (32768 ≤ (32768 : Slot).toNat ∧ (32768 : Slot).toNat ≤ 32775) ∧
    (32768 ≤ (32775 : Slot).toNat ∧ (32775 : Slot).toNat ≤ 32775) ∧
    32776 ≤ (32776 : Slot).toNat := by decide

theorem witness_OperandsResolveByKind :
    (32767 : Slot).toNat ≤ 32767 ∧
    (32768 : Slot).toNat = 32768 + (0 : RegIdx).val ∧ (32775 : Slot).toNat = 32768 + (7 : RegIdx).val ∧
    32776 ≤ (32776 : Slot).toNat := by decide

theorem witness_AssembledStatementIsEncoding :
    ([.reg 0, .lit 5] : List AsmOperand).map (fun o => match o with
      | .reg r => some (Operand.reg r)
      | .lit w => some (Operand.lit w)
      | .label _ => none) = ([.reg 0, .lit 5] : List Operand).map some ∧
    instrOfMnemonic "set" [.reg 0, .lit 5] = some (.set (.reg 0) (.lit 5)) := by decide

/-- The last slot of RAM; the two ways in which the engine has the turn. -/
theorem witness_StepRunsDecodedInstruction :
    ∃ s rest, EngineTurn s rest ∧ s.status = .running ∧ s.pc.toNat % 2 = 0 ∧ s.pc.toNat + 2 ≤ 65536 ∧
      decode (s.ram.bytes s.pc.toNat 2) = .ok (.noop, []) :=
  ⟨atPc start 65534 [0x15, 0x00], [], .inr ⟨rfl, rfl⟩, rfl, by decide, by decide, by decide⟩

theorem witness_EngineTurn_planned :
    EngineTurn { start with schedule := [.engine, .host .reset] } [.host .reset] := .inl rfl

theorem witness_FetchChecksInOrder :
    ∃ rest, (∀ pc bytes, EngineTurn (atPc start pc bytes) rest ∧ (atPc start pc bytes).status = .running) ∧
      (atPc start 1 []).pc.toNat % 2 = 1 ∧
      ((atPc start 65536 []).pc.toNat % 2 = 0 ∧ 65534 < (atPc start 65536 []).pc.toNat) ∧
      ((atPc start 65534 [22]).pc.toNat % 2 = 0 ∧ (atPc start 65534 [22]).pc.toNat ≤ 65534 ∧
        21 < ((atPc start 65534 [22]).ram.read 65534).toNat) ∧
      (operandCounts[((atPc start 65534 [19]).ram.read 65534).toNat]? = some 1 ∧ 65534 < 65534 + 2 * 1) ∧
      operandCounts[((atPc start 65532 [19]).ram.read 65532).toNat]? = some 1 ∧ 65532 + 2 * 1 ≤ 65534 :=
  ⟨[], fun _ _ => ⟨.inr ⟨rfl, rfl⟩, rfl⟩, by decide, by decide, by decide, by decide, by decide⟩

theorem witness_StoppedEngineStepsAreNoOps :
    EngineTurn { start with status := .faulted } [] ∧ ({ start with status := .faulted } : State).status ≠ .running :=
  ⟨.inr ⟨rfl, rfl⟩, by decide⟩

theorem witness_FaultsArePrecise_exec :
    start.status ≠ .faulted ∧ ∃ t, exec (.jmp (.invalid 32776)) start = .next t ∧ t.status = .faulted :=
  ⟨by decide, _, rfl, rfl⟩

theorem witness_FaultsArePrecise_step :
    ∃ t, EngineTurn (atPc start 0 [0x16]) [] ∧ (atPc start 0 [0x16]).status = .running ∧
      step (atPc start 0 [0x16]) = .next t ∧ t.status = .faulted :=
  ⟨_, .inr ⟨rfl, rfl⟩, rfl, rfl, by decide⟩

/-- Both ways in which a value or address operand can be read. -/
theorem witness_Reads : Reads start (.lit 32767) 32767 ∧ Reads start (.reg 7) 32767 ∧ Reads start (.reg 0) 10 :=
  ⟨.inl rfl, .inr ⟨7, rfl, rfl⟩, .inr ⟨0, rfl, rfl⟩⟩

theorem witness_SetCopiesValueToRegister : Operand.reg 7 = .reg 7 ∧ Reads start (.reg 0) 10 :=
  ⟨rfl, .inr ⟨0, rfl, rfl⟩⟩

/-- The first faulting operand of `RaisesOperandFaults`: an R slot with a literal, an R slot with 32776, a V slot and an
A slot. -/
theorem witness_RaisesOperandFaults :
    firstOperandFault [(.register, .lit 32767), (.value, .invalid 40000)] = some (.invalidRegister, 32767) ∧
    firstOperandFault [(.register, .invalid 32776)] = some (.invalidValue, 32776) ∧
    firstOperandFault [(.register, .reg 0), (.value, .lit 1), (.value, .invalid 40000)] =
      some (.invalidValue, 40000) ∧
    firstOperandFault [(.value, .lit 0), (.address, .invalid 40000)] = some (.invalidAddress, 40000) := by decide

/-- A stack as deep as it may be, and one with room for one entry. -/
theorem witness_PushPutsValueOnStack :
    ∃ s t : State, Reads s (.lit 3) 3 ∧ Reads t (.lit 3) 3 ∧ s.stack.length = s.config.stackDepthMax ∧
      t.stack.length ≠ t.config.stackDepthMax ∧ t.stack.length + 1 = t.config.stackDepthMax :=
  ⟨{ start with config := { Config.default with stackDepthMax := 2 }, stack := [2, 1] },
    { start with config := { Config.default with stackDepthMax := 2 }, stack := [1] },
    .inl rfl, .inl rfl, by decide, by decide, by decide⟩

/-- An empty stack, a top entry that fits a register, and one that does not. -/
theorem witness_PopMovesTopEntryToRegister :
    Operand.reg 7 = .reg 7 ∧ start.stack = [] ∧
    (({ start with stack := [32768, 1] } : State).stack = 32768 :: [1] ∧ 32767 < (32768 : Slot).toNat) ∧
    ({ start with stack := [32767, 1] } : State).stack = 32767 :: [1] ∧ (32767 : Slot).toNat ≤ 32767 := by decide

theorem witness_WritesOfTwoValues : Reads start (.reg 2) 30 ∧ Reads start (.lit 32767) 32767 :=
  ⟨.inr ⟨2, rfl, rfl⟩, .inl rfl⟩

theorem witness_JmpSetsPcToTwiceTheWordAddress : Reads start (.lit 32767) 32767 := .inl rfl

/-- A zero and a non-zero condition. -/
theorem witness_JtJumpsOnNonZero : Reads start (.lit 0) 0 ∧ Reads start (.lit 1) 1 ∧ Reads start (.reg 7) 32767 :=
  ⟨.inl rfl, .inl rfl, .inr ⟨7, rfl, rfl⟩⟩

theorem witness_JfJumpsOnZero : Reads State.reset (.reg 0) 0 ∧ Reads start (.lit 1) 1 ∧ Reads start (.lit 100) 100 :=
  ⟨.inr ⟨0, rfl, rfl⟩, .inl rfl, .inl rfl⟩

/-- The last place a `call` fits, with and without room on the stack. -/
theorem witness_CallPushesReturnAddressAndJumps :
    ∃ s t : State, Reads s (.lit 10) 10 ∧ Reads t (.reg 0) 10 ∧ s.pc.toNat + 2 ≤ 65534 ∧ t.pc.toNat + 2 ≤ 65534 ∧
      s.pc = 65532 ∧ s.stack.length = s.config.stackDepthMax ∧ t.stack.length ≠ t.config.stackDepthMax :=
  ⟨{ start with pc := 65532, config := { Config.default with stackDepthMax := 1 }, stack := [5] },
    { start with pc := 65532 }, .inl rfl, .inr ⟨0, rfl, rfl⟩, by decide, by decide, by decide, by decide, by decide⟩

theorem witness_RetPopsTargetOrHalts :
    start.stack = [] ∧ ({ start with stack := [32768] } : State).stack = 32768 :: [] := by decide

theorem witness_MultIsTheSameAtEveryWidth : 15 ≤ 15 ∧ Reads start (.reg 7) 32767 :=
  ⟨by decide, .inr ⟨7, rfl, rfl⟩⟩

theorem witness_ModWritesRemainderOrFaultsOnZero :
    Reads start (.reg 7) 32767 ∧ Reads start (.lit 0) 0 ∧ Reads start (.lit 1) 1 ∧ (0 : Word).toNat = 0 ∧
      (1 : Word).toNat ≠ 0 :=
  ⟨.inr ⟨7, rfl, rfl⟩, .inl rfl, .inl rfl, by decide, by decide⟩

theorem witness_NotWritesComplementOfFifteenBits : Operand.reg 0 = .reg 0 ∧ Reads start (.lit 0) 0 := ⟨rfl, .inl rfl⟩

/-- The last word of RAM: 32767 can be loaded, 32768 cannot. -/
theorem witness_RmemLoadsStoredWord :
    ∃ s t : State, Reads s (.lit 32767) 32767 ∧ Reads t (.reg 7) 32767 ∧
      (s.ram.read (2 * (32767 : Word).toNat + 1)).toNat * 256 + (s.ram.read (2 * (32767 : Word).toNat)).toNat = 32767 ∧
      (t.ram.read (2 * (32767 : Word).toNat + 1)).toNat * 256 + (t.ram.read (2 * (32767 : Word).toNat)).toNat = 32768 :=
  ⟨{ start with ram := [(65534, 0xff), (65535, 0x7f)] }, { start with ram := [(65535, 0x80)] },
    .inl rfl, .inr ⟨7, rfl, rfl⟩, by decide, by decide⟩

theorem witness_WmemStoresWordLittleEndian :
    ∃ s : State, s.ram.wf = true ∧ s.ram ≠ [] ∧ Reads s (.lit 32767) 32767 ∧ Reads s (.reg 0) 10 :=
  ⟨{ start with ram := [(200, 0x39), (65535, 0x30)] }, by decide, by decide, .inl rfl, .inr ⟨0, rfl, rfl⟩⟩

theorem witness_RmemReadsWhatWmemWrote :
    start.ram.wf = true ∧ Reads start (.lit 32767) 32767 ∧ Reads start (.reg 7) 32767 :=
  ⟨by decide, .inl rfl, .inr ⟨7, rfl, rfl⟩⟩

theorem witness_MemoriesThatReadAlikeAreEqual :
    ∃ m m' : Memory, m ≠ [] ∧ m.wf = true ∧ m'.wf = true ∧ ∀ j, m.read j = m'.read j :=
  ⟨[(200, 0x39)], Memory.write [(200, 0x30)] 200 0x39, by decide, by decide, by decide, fun _ => rfl⟩

/-- Room for one byte, a full channel, an unbounded one, and a closed one. -/
theorem witness_OutOffersLowByteToChannel :
    ∃ cap : Config, cap.outCap = some 1 ∧
      ((∀ n, ({ start with config := cap } : State).config.outCap = some n →
        ({ start with config := cap } : State).outQ.length < n) ∧
      (∀ n, start.config.outCap = some n → start.outQ.length < n) ∧
      1 ≤ ({ start with config := cap, outQ := [0x41] } : State).outQ.length ∧
      ({ start with outClosed := true } : State).outClosed = true ∧ start.outClosed = false) :=
  ⟨{ Config.default with outCap := some 1 }, rfl,
    fun n h => by cases h; decide, fun n h => (by cases h), by decide, by decide, by decide⟩

theorem witness_InTakesHeadByteOfChannel :
    ({ start with inQ := [0x78] } : State).inQ = 0x78 :: [] ∧
    (start.inQ = [] ∧ ({ start with inClosed := true } : State).inClosed = true) ∧
    start.inQ = [] ∧ start.inClosed = false := by decide

theorem witness_RegisterWritersFrame :
    (∃ t, exec (.set (.reg 0) (.lit 5)) start = .next t) ∧ (∃ t, exec (.not (.reg 0) (.lit 5)) start = .next t) ∧
    (∃ t, exec (.rmem (.reg 0) (.lit 5)) start = .next t) ∧
    (∃ t, exec (.eq (.reg 0) (.lit 5) (.reg 1)) start = .next t) ∧
    (∃ t, exec (.gt (.reg 0) (.lit 5) (.reg 1)) start = .next t) ∧
    (∃ t, exec (.add (.reg 0) (.lit 5) (.reg 1)) start = .next t) ∧
    (∃ t, exec (.mult (.reg 0) (.lit 5) (.reg 1)) start = .next t) ∧
    (∃ t, exec (.mod (.reg 0) (.lit 5) (.reg 1)) start = .next t) ∧
    (∃ t, exec (.and (.reg 0) (.lit 5) (.reg 1)) start = .next t) ∧
    ∃ t, exec (.or (.reg 0) (.lit 5) (.reg 1)) start = .next t :=
  ⟨⟨_, rfl⟩, ⟨_, rfl⟩, ⟨_, rfl⟩, ⟨_, rfl⟩, ⟨_, rfl⟩, ⟨_, rfl⟩, ⟨_, rfl⟩, ⟨_, rfl⟩, ⟨_, rfl⟩, ⟨_, rfl⟩⟩

theorem witness_StackInstructionsFrame :
    (∃ t, exec (.push (.lit 5)) start = .next t) ∧
    (∃ t, exec (.pop (.reg 0)) { start with stack := [7] } = .next t ∧ t.status = .running) ∧
    (∃ t, exec (.call (.lit 5)) start = .next t) ∧
    (∃ t, exec .ret { start with stack := [7] } = .next t ∧ t.status = .running) ∧
    ∃ t, exec .ret start = .next t ∧ t.status = .halted :=
  ⟨⟨_, rfl⟩, ⟨_, rfl, rfl⟩, ⟨_, rfl⟩, ⟨_, rfl, rfl⟩, ⟨_, rfl, rfl⟩⟩

theorem witness_JumpsNoopAndHaltFrame :
    (∃ t, exec (.jmp (.lit 5)) start = .next t) ∧ (∃ t, exec (.jt (.lit 1) (.lit 5)) start = .next t) ∧
    (∃ t, exec (.jf (.lit 1) (.lit 5)) start = .next t) ∧ (∃ t, exec .noop start = .next t) ∧
    ∃ t, exec .halt start = .next t :=
  ⟨⟨_, rfl⟩, ⟨_, rfl⟩, ⟨_, rfl⟩, ⟨_, rfl⟩, ⟨_, rfl⟩⟩

theorem witness_WmemFrame :
    (∃ t, exec (.wmem (.lit 32767) (.reg 0)) start = .next t ∧ resolveAddress start (.lit 32767) = .ok 65534) ∧
    ∃ t, exec (.wmem (.invalid 32776) (.reg 0)) start = .next t ∧
      resolveAddress start (.invalid 32776) = .error ⟨.invalidAddress, 32776⟩ :=
  ⟨⟨_, rfl, by decide⟩, ⟨_, rfl, by decide⟩⟩

theorem witness_ChannelInstructionsFrame :
    (∃ t, exec (.out (.reg 7)) start = .next t ∧ t.outQ = [0xff]) ∧
    (∃ t, exec (.inp (.reg 0)) { start with inQ := [0x78] } = .next t ∧ t.inQ = []) ∧
    ∃ t, exec (.inp (.reg 0)) start = .next t ∧ t.held = true :=
  ⟨⟨_, rfl, by decide⟩, ⟨_, rfl, by decide⟩, ⟨_, rfl, rfl⟩⟩

theorem witness_OnlyTwelveInstructionsWriteRegisters :
    ∃ t, exec (.set (.reg 7) (.lit 5)) start = .next t ∧ t.getReg 7 ≠ start.getReg 7 :=
  ⟨_, rfl, by decide⟩

theorem witness_EachPlaceHasItsOwnWriters :
    (∃ t, exec (.wmem (.lit 5) (.lit 1)) start = .next t ∧ t.ram ≠ start.ram) ∧
    (∃ t, exec (.push (.lit 5)) start = .next t ∧ t.stack ≠ start.stack) ∧
    (∃ t, exec (.out (.lit 5)) start = .next t ∧ t.outQ ≠ start.outQ) ∧
    ∃ t, exec (.inp (.reg 0)) { start with inQ := [0x78] } = .next t ∧ t.inQ ≠ [0x78] :=
  ⟨⟨_, rfl, by decide⟩, ⟨_, rfl, by decide⟩, ⟨_, rfl, by decide⟩, ⟨_, rfl, by decide⟩⟩

theorem witness_StatusChangesOnlyAsTheRulesSay :
    (∃ t, step start = .next t ∧ t.status ≠ start.status ∧ t.status = .halted) ∧
    (∃ t, step (atPc start 1 []) = .next t ∧ t.status ≠ start.status ∧ t.status = .faulted) ∧
    ∃ t, step { start with status := .halted, schedule := [.host .reset] } = .next t ∧ t.status = .running :=
  ⟨⟨_, rfl, by decide, by decide⟩, ⟨_, rfl, by decide, by decide⟩, ⟨_, rfl, by decide⟩⟩

theorem witness_ClosedFlagsNeverClear :
    ∃ t, step { start with outClosed := true, inClosed := true, schedule := [.host .reset] } = .next t :=
  ⟨_, rfl⟩

theorem witness_ParametersNeverChange : ∃ t, step { start with schedule := [.host .reset] } = .next t := ⟨_, rfl⟩

/-- A state in mid-run, with a waiting step, that meets the invariant and steps on. -/
theorem witness_StepKeepsInvariant : waiting.Inv ∧ ∃ t, step waiting = .next t ∧ t = waiting := by
  refine ⟨?_, _, rfl, by decide⟩
  constructor
  case bufLenPower => exact ⟨8, by decide, by decide⟩
  case stackEntries => intro v h; cases h
  case outQBound => intro n h; cases h
  case inQBound => intro n h; cases h
  all_goals decide

theorem witness_ResetRestoresInitialState :
    ∃ s : State, s.schedule = .host .reset :: [] ∧ s.config.image.length ≤ 65536 ∧ s.config.image ≠ [] :=
  ⟨{ waiting with config := { Config.default with image := [0x14, 0x00] }, schedule := [.host .reset] },
    by decide, by decide, by decide⟩

theorem witness_ConstructionGivesTheResetState :
    (∃ c : Config, 65536 < c.image.length) ∧
    ({ Config.default with stackDepthMax := 65535, outCap := some 1, image := [0x14] } : Config).wf = true :=
  ⟨⟨{ Config.default with image := List.replicate 65537 0 }, by
    show 65536 < (List.replicate 65537 (0 : Byte)).length
    rw [List.length_replicate]
    decide⟩, by decide⟩

theorem witness_HostActsOnTheChannels :
    ({ start with outQ := [1, 2], schedule := [.host .takeOutput] } : State).outQ = 1 :: [2] ∧
    (start.inClosed = false ∧ ∀ n, ({ start with config := { Config.default with inCap := some 1 } } : State).config.inCap
      = some n → start.inQ.length < n) :=
  ⟨by decide, by decide, fun n h => by cases h; decide⟩

/-- An `out` whose byte is accepted, one that meets a full channel, one that meets a closed one, an `in` that takes a byte,
and one that finds none. -/
theorem witness_HandshakesMoveBytes :
    ∃ s full closed taking : State,
      EngineTurn s [] ∧ s.ports.outOffer = some 0x41 ∧ s.ports.outReady = true ∧
      EngineTurn full [] ∧ full.ports.outOffer = some 0x41 ∧ full.ports.outReady = false ∧
      EngineTurn closed [] ∧ closed.ports.outClosed = true ∧ closed.ports.outOffer = none ∧
      EngineTurn taking [] ∧ taking.ports.inOffer = some 0x78 ∧ taking.ports.inReady = true ∧
      EngineTurn waiting [] ∧ waiting.ports.inOffer = none :=
  ⟨start.placeBytes [0x13, 0x00, 0x41, 0x01],
    ({ start with config := { Config.default with outCap := some 1 }, outQ := [1] } : State).placeBytes
      [0x13, 0x00, 0x41, 0x01],
    ({ start with outClosed := true } : State).placeBytes [0x13, 0x00, 0x41, 0x01],
    { waiting with inQ := [0x78] },
    .inr ⟨rfl, rfl⟩, by decide, by decide, .inr ⟨rfl, rfl⟩, by decide, by decide, .inr ⟨rfl, rfl⟩, by decide,
    by decide, .inr ⟨rfl, rfl⟩, by decide, by decide, .inr ⟨rfl, rfl⟩, by decide⟩

/-- Two states with the same parameters and input and different pasts. -/
theorem witness_RunsAfterResetAreTheSame :
    ∃ s t : State, s.config = t.config ∧ s.config.outCap = none ∧ s.inQ = t.inQ ∧ s.inClosed = t.inClosed ∧
      s.outClosed = t.outClosed ∧ s.regs ≠ t.regs ∧ s.inQ ≠ [] :=
  ⟨{ start with inQ := [0x78] }, { State.reset with inQ := [0x78], outQ := [1] },
    by decide, by decide, by decide, by decide, by decide, by decide, by decide⟩

theorem witness_PopsReturnPushedValuesInReverse :
    ([0, 1] : List RegIdx).length = ([5, 6] : List Word).length ∧
      State.reset.stack.length + ([5, 6] : List Word).length ≤ State.reset.config.stackDepthMax := by decide

end Sys2Proof.Tests
end

/-! # The resize check (20_memory.md, R38) -/

section
namespace Sys2Proof.Machine

/-- R38's rule for the new length in the spec's own order: the grow test first, then both shrink tests, with the floor
written out. The three cases are those of `resizedLen_cases`. -/
theorem resizedLen_eq_ite (sp len : Nat) :
    resizedLen sp len =
      if 2 * sp ≥ len then 2 * len else if 4 * sp < len ∧ len > 256 then len / 2 else len := by
  obtain ⟨hgrow, hlen⟩ | ⟨hbelowHalf, hquarter, hfloor, hlen⟩ | ⟨hbelowHalf, hkeep, hlen⟩ := resizedLen_cases sp len
  · rw [hlen, if_pos hgrow]
  · rw [hlen, if_neg (Nat.not_le.mpr hbelowHalf), if_pos ⟨hquarter, hfloor⟩]
  · have hnoShrink : ¬(4 * sp < len ∧ len > 256) := by omega
    rw [hlen, if_neg (Nat.not_le.mpr hbelowHalf), if_neg hnoShrink]

/-- Settles O13: the resize check only writes the buffer length, and the length it writes is `resizedLen_eq_ite`'s. -/
theorem resizeCheckGrowsAtHalfShrinksBelowQuarter :
    Obligations.ResizeCheckGrowsAtHalfShrinksBelowQuarter :=
  fun s => congrArg s.setBufLen (resizedLen_eq_ite s.sp s.bufLen)

end Sys2Proof.Machine
end

/-! # The encoding's operands and lengths (30_encoding.md, R53 to R56, R60) -/

section
namespace Sys2Proof

open Sys2Proof.Machine Sys2Proof.Spec

/-! ### The three classes of a raw operand (R53) -/

theorem toNat_setWidth_fifteen {w : Slot} (hw : w.toNat ≤ 32767) : (w.setWidth 15).toNat = w.toNat :=
  (BitVec.toNat_setWidth 15 w).trans (Nat.mod_eq_of_lt (Nat.lt_succ_of_le hw))

theorem classify_eq_lit {w : Slot} (hw : w.toNat ≤ 32767) : classify w = .lit (w.setWidth 15) :=
  if_pos hw

theorem classify_eq_reg {w : Slot} {r : RegIdx} (hw : w.toNat = 32768 + r.val) : classify w = .reg r := by
  have hraw : w = (Operand.reg r).raw :=
    BitVec.eq_of_toNat_eq (by rw [hw, Operand.raw, BitVec.toNat_ofNat, Nat.mod_eq_of_lt (by omega)])
  rw [hraw]
  exact classify_raw rfl

theorem classify_eq_invalid {w : Slot} (hw : 32776 ≤ w.toNat) : classify w = .invalid w :=
  classify_raw (o := .invalid w) (decide_eq_true hw)

/-- Settles O7: one classification lemma for each of the three ranges. -/
theorem operandClassFollowsRawValue : Obligations.OperandClassFollowsRawValue := by
  refine fun w => ⟨fun hlit => ?_, fun hlow hhigh => ?_, classify_eq_invalid⟩
  · exact ⟨w.setWidth 15, classify_eq_lit hlit, toNat_setWidth_fifteen hlit⟩
  · have hr : w.toNat - 32768 < 8 := by omega
    exact ⟨⟨w.toNat - 32768, hr⟩, classify_eq_reg (Nat.add_sub_cancel' hlow).symm, rfl⟩

/-! ### The three resolutions of a raw operand (R54 to R56) -/

/-- A fault on a fetched operand reports the operand's slot unchanged (R96): classification keeps the raw value. -/
theorem operandTrap_classify (k : FaultKind) (w : Slot) : operandTrap k (classify w) = ⟨k, w.setWidth 17⟩ := by
  rw [operandTrap, raw_classify]

theorem byteOf_setWidth {w : Slot} (hw : w.toNat ≤ 32767) :
    byteOf (w.setWidth 15) = BitVec.ofNat 17 (2 * w.toNat) := by
  rw [byteOf, toNat_setWidth_fifteen hw]

/-- Settles O8: the class of the raw value selects the arm of each resolution. -/
theorem operandsResolveByKind : Obligations.OperandsResolveByKind := by
  refine fun s w => ⟨fun hlit => ?_, fun r hreg => ?_, fun hinvalid => ?_⟩
  · have htrap := operandTrap_classify .invalidRegister w
    rw [classify_eq_lit hlit] at htrap ⊢
    exact ⟨rfl, congrArg Except.error htrap, congrArg Except.ok (byteOf_setWidth hlit)⟩
  · rw [classify_eq_reg hreg]
    exact ⟨rfl, rfl, rfl⟩
  · rw [classify_eq_invalid hinvalid]
    exact ⟨rfl, rfl, rfl⟩

/-! ### The opcode of a decoded instruction, and its length (R58, R60) -/

theorem format0_opcode {j i : Instr} {n : Nat} {bytes rest : List Byte}
    (h : format0 j bytes = .ok (i, rest)) (hj : j.opcode.toNat = n) : i.opcode.toNat = n := by
  cases h
  exact hj

theorem format1_opcode {mk : Operand → Instr} {i : Instr} {n : Nat} {bytes rest : List Byte}
    (h : format1 mk bytes = .ok (i, rest)) (hmk : ∀ a, (mk a).opcode.toNat = n) : i.opcode.toNat = n := by
  unfold format1 at h
  split at h <;> cases h
  exact hmk _

theorem format2_opcode {mk : Operand → Operand → Instr} {i : Instr} {n : Nat} {bytes rest : List Byte}
    (h : format2 mk bytes = .ok (i, rest)) (hmk : ∀ a b, (mk a b).opcode.toNat = n) : i.opcode.toNat = n := by
  unfold format2 at h
  split at h <;> cases h
  exact hmk _ _

theorem format3_opcode {mk : Operand → Operand → Operand → Instr} {i : Instr} {n : Nat} {bytes rest : List Byte}
    (h : format3 mk bytes = .ok (i, rest)) (hmk : ∀ a b c, (mk a b c).opcode.toNat = n) : i.opcode.toNat = n := by
  unfold format3 at h
  split at h <;> cases h
  exact hmk _ _ _

/-- The opcode map answers an instruction of the opcode it was asked for: one case per row of R58, grouped by format. -/
theorem decodeOpcode_opcode {op : Byte} {bytes rest : List Byte} {i : Instr}
    (h : decodeOpcode op bytes = .ok (i, rest)) : i.opcode = op := by
  apply BitVec.eq_of_toNat_eq
  unfold decodeOpcode at h
  split at h
  case h_1 hop | h_19 hop | h_22 hop => exact (format0_opcode h rfl).trans hop.symm
  case h_3 hop | h_4 hop | h_7 hop | h_18 hop | h_20 hop | h_21 hop =>
    exact (format1_opcode h fun _ => rfl).trans hop.symm
  case h_2 hop | h_8 hop | h_9 hop | h_15 hop | h_16 hop | h_17 hop =>
    exact (format2_opcode h fun _ _ => rfl).trans hop.symm
  case h_5 hop | h_6 hop | h_10 hop | h_11 hop | h_12 hop | h_13 hop | h_14 hop =>
    exact (format3_opcode h fun _ _ _ => rfl).trans hop.symm
  case h_23 => cases h

/-- The opcode byte of a decoded instruction is the first byte it was read from (R52). -/
theorem decode_opcode {op : Byte} {bytes rest : List Byte} {i : Instr} (h : decode (op :: bytes) = .ok (i, rest)) :
    i.opcode = op := by
  cases bytes with
  | nil => cases h
  | cons _ operandBytes => exact decodeOpcode_opcode (bytes := operandBytes) h

/-- The spec's table of operand counts agrees with the instructions' operands (R58). -/
theorem operandCounts_opcode (i : Instr) : operandCounts[i.opcode.toNat]? = some i.operandCount := by
  cases i <;> rfl

/-- Settles O6: the opcode byte is the decoded instruction's own, so the table's count for it is the instruction's, and
`decode_length` gives the bytes used. -/
theorem lengthIsAFunctionOfTheOpcode : Obligations.LengthIsAFunctionOfTheOpcode := by
  intro op bytes rest i h
  have hlen : bytes.length + 1 = 2 * (1 + i.operandCount) + rest.length := decode_length h
  have hcount := operandCounts_opcode i
  rw [decode_opcode h] at hcount
  exact ⟨i.operandCount, hcount, (Nat.add_comm 1 _).trans hlen, rfl⟩

end Sys2Proof
end

/-! # What an instruction's statement asks of its rule (R12, R51, R53, R54, R59, R62, R98)

A statement about one instruction has three parts: its encoding, its operand faults, and its end. The lemmas here reduce
each part to the instruction's own rule. -/

section
namespace Sys2Proof.Machine

open Sys2Proof.Spec

/-! ### The encoding -/

theorem raw_toNat (o : Operand) : o.raw.toNat = rawNumber o := by
  cases o with
  | lit w => exact BitVec.toNat_setWidth_of_le (by decide)
  | reg r => exact Nat.mod_eq_of_lt (by have := r.isLt; omega)
  | invalid raw => rfl

theorem slotBytes_raw (o : Operand) : slotBytes o.raw = twoBytes (rawNumber o) :=
  congrArg twoBytes (raw_toNat o)

/-- The encoder lays out the opcode and the raw operands slot by slot (R51), whatever the instruction. -/
theorem encodedAs_opcode_operands (i : Instr) : EncodedAs i i.opcode.toNat (i.operands.map (·.2)) := by
  have hopcode : slotBytes (i.opcode.setWidth 16) = twoBytes i.opcode.toNat :=
    congrArg twoBytes (BitVec.toNat_setWidth_of_le (by decide))
  simp only [EncodedAs, encode, encodeSlots, List.flatMap_cons, List.flatMap_map, slotBytes_raw, hopcode]

/-! ### Operand faults -/

theorem operandTrap_eq (k : FaultKind) (o : Operand) : operandTrap k o = ⟨k, BitVec.ofNat 17 (rawNumber o)⟩ := by
  rw [operandTrap, ← raw_toNat, BitVec.ofNat_toNat]

/-- `x` resolves operand `o` as a slot of a kind does: it raises the operand's fault if there is one, and only then
(R59). -/
def Resolves {α : Type} (kind : OperandKind) (o : Operand) (x : Except Trap α) : Prop :=
  match operandFault kind o with
  | some k => x = .error ⟨k, BitVec.ofNat 17 (rawNumber o)⟩
  | none => ∃ y, x = .ok y

theorem resolves_register (o : Operand) : Resolves .register o (resolveRegister o) := by
  cases o with
  | lit w => exact congrArg Except.error (operandTrap_eq .invalidRegister (.lit w))
  | reg r => exact ⟨r, rfl⟩
  | invalid raw => exact congrArg Except.error (operandTrap_eq .invalidValue (.invalid raw))

theorem resolves_value (s : State) (o : Operand) : Resolves .value o (resolveValue s o) := by
  cases o with
  | lit w => exact ⟨w, rfl⟩
  | reg r => exact ⟨s.getReg r, rfl⟩
  | invalid raw => exact congrArg Except.error (operandTrap_eq .invalidValue (.invalid raw))

/-- A rule `e` raises the fault of the first of these operands that has one, with its raw number (R62). -/
def RaisesFirstFault {α : Type} (operands : List (OperandKind × Operand)) (e : Except Trap α) : Prop :=
  ∀ k v, firstOperandFault operands = some (k, v) → e = .error ⟨k, BitVec.ofNat 17 v⟩

theorem raisesFirstFault_nil {α : Type} (e : Except Trap α) : RaisesFirstFault [] e :=
  fun _ _ h => nomatch h

/-- A rule that resolves one operand and then raises the first fault of the others raises the first fault of all. -/
theorem Resolves.bind {α β : Type} {kind : OperandKind} {o : Operand} {operands : List (OperandKind × Operand)}
    {x : Except Trap α} {f : α → Except Trap β} (hx : Resolves kind o x)
    (hf : ∀ y, RaisesFirstFault operands (f y)) : RaisesFirstFault ((kind, o) :: operands) (x >>= f) := by
  intro k v hfirst
  cases hfault : operandFault kind o with
  | some k' =>
    simp only [Resolves, firstOperandFault, hfault] at hx hfirst
    cases hfirst
    rw [hx, except_error_bind]
  | none =>
    simp only [Resolves, firstOperandFault, hfault] at hx hfirst
    obtain ⟨y, rfl⟩ := hx
    exact hf y k v hfirst

/-- An instruction raises its operands' faults when its rule does: ending in a fault is all that `complete` does with
one (R98). -/
theorem raisesOperandFaults_of_rule {i : Instr} {operands : List (OperandKind × Operand)} {n : Nat}
    {rule : State → Effect} (hexec : ∀ s, exec i s = complete n s (rule s))
    (hrule : ∀ s, RaisesFirstFault operands (rule s)) : RaisesOperandFaults i operands := by
  intro s k v hfirst
  rw [hexec, hrule s k v hfirst]
  rfl

theorem writeUnary_raisesFirstFault (s : State) (a b : Operand) (f : Word → Word) :
    RaisesFirstFault [(.register, a), (.value, b)] (writeUnary s a b f) :=
  (resolves_register a).bind fun _ => (resolves_value s b).bind fun _ => raisesFirstFault_nil _

/-! ### The end of an instruction -/

/-- What the statements call reading a value is the operand decoder's (R54). -/
theorem resolveValue_of_reads {s : State} {o : Operand} {v : Word} (h : Reads s o v) : resolveValue s o = .ok v := by
  obtain rfl | ⟨r, rfl, rfl⟩ := h
  · rfl
  · rfl

/-- The 17-bit sum of the model is the exact one reduced (R12, log entry 11). -/
theorem nextPc_eq_next (s : State) (n : Nat) : s.nextPc n = next s n := by
  rw [State.nextPc, next, BitVec.ofNat_add, BitVec.ofNat_toNat, BitVec.setWidth_eq]

theorem setReg_setPc_eq_written (s : State) (d : RegIdx) (v : Word) (n : Nat) :
    (s.setReg d v).setPc (s.nextPc n) = written s d v n := by
  rw [nextPc_eq_next]
  rfl

/-- A fault that reports a 16-bit stack entry (R66, R67) gives the statements' faulted state. -/
theorem raise_setWidth_eq_faulted (s : State) (k : FaultKind) (v : Slot) :
    s.raise ⟨k, v.setWidth 17⟩ = faulted s k v.toNat := by
  rw [← BitVec.ofNat_toNat]
  rfl

theorem complete_writeUnary {s : State} {b : Operand} {v : Word} (d : RegIdx) (f : Word → Word)
    (hb : resolveValue s b = .ok v) :
    complete 2 s (writeUnary s (.reg d) b f) = .next (written s d (f v) 2) := by
  rw [writeUnary, resolveRegister_reg, except_ok_bind, hb, except_ok_bind, complete_next, setReg_setPc_eq_written]

end Sys2Proof.Machine
end

/-! # set, push and pop (40_data_movement.md) -/

section
namespace Sys2Proof.Machine

open Sys2Proof.Spec

/-! ### set (R65) -/

/-- Settles O15: `set` is the unary register write of the value itself. -/
theorem setCopiesValueToRegister : Obligations.SetCopiesValueToRegister := by
  intro a b
  refine ⟨encodedAs_opcode_operands (.set a b), ?_, ?_⟩
  · exact raisesOperandFaults_of_rule (fun _ => rfl) fun s => writeUnary_raisesFirstFault s a b _
  · rintro s d v rfl hb
    exact complete_writeUnary d (fun v => v) (resolveValue_of_reads hb)

/-! ### push (R66) -/

theorem push_raisesOperandFaults (a : Operand) : RaisesOperandFaults (.push a) [(.value, a)] :=
  raisesOperandFaults_of_rule (fun _ => rfl) fun s => (resolves_value s a).bind fun _ => raisesFirstFault_nil _

theorem exec_push_of_full {s : State} {a : Operand} {v : Word} (ha : resolveValue s a = .ok v)
    (hfull : s.sp = s.config.stackDepthMax) : exec (.push a) s = .next (faulted s .stackOverflow v.toNat) := by
  have hpush : s.pushEntry (v.setWidth 16) = .error ⟨.stackOverflow, (v.setWidth 16).setWidth 17⟩ :=
    pushEntry_eq_error.2 ⟨hfull, rfl⟩
  rw [exec, execPush, ha, except_ok_bind, hpush, except_error_bind, complete_error, raise_setWidth_eq_faulted,
    BitVec.toNat_setWidth_of_le (by decide)]

theorem exec_push_of_room {s : State} {a : Operand} {v : Word} (ha : resolveValue s a = .ok v)
    (hroom : s.sp ≠ s.config.stackDepthMax) :
    exec (.push a) s = .next { s with stack := v.setWidth 16 :: s.stack, pc := next s 1 } := by
  have hpush : s.pushEntry (v.setWidth 16) = .ok (s.setStack (v.setWidth 16 :: s.stack)) :=
    pushEntry_eq_ok.2 ⟨hroom, rfl⟩
  rw [exec, execPush, ha, except_ok_bind, hpush, except_ok_bind, complete_next, nextPc_eq_next]
  rfl

/-- Settles O16: once the value operand has resolved, the two cases are those of `State.pushEntry`. -/
theorem pushPutsValueOnStack : Obligations.PushPutsValueOnStack := by
  intro a
  refine ⟨encodedAs_opcode_operands (.push a), push_raisesOperandFaults a, fun s v ha => ⟨?_, fun hroom => ?_⟩⟩
  · exact exec_push_of_full (resolveValue_of_reads ha)
  · rw [BitVec.ofNat_toNat]
    exact exec_push_of_room (resolveValue_of_reads ha) hroom

/-! ### pop (R67) -/

theorem pop_raisesOperandFaults (a : Operand) : RaisesOperandFaults (.pop a) [(.register, a)] :=
  raisesOperandFaults_of_rule (fun _ => rfl) fun _ => (resolves_register a).bind fun _ => raisesFirstFault_nil _

theorem exec_pop_of_empty {s : State} (d : RegIdx) (hs : s.stack = []) :
    exec (.pop (.reg d)) s = .next (faulted s .emptyStack 0) := by
  simp only [exec, execPop, resolveRegister_reg, except_ok_bind, hs, complete_error]
  rfl

/-- On a stack with an entry, `pop` checks the entry's range and then moves it. -/
theorem exec_pop_of_cons {s : State} (d : RegIdx) {v : Slot} {rest : List Slot} (hs : s.stack = v :: rest) :
    exec (.pop (.reg d)) s =
      complete 1 s (wordOfSlot v >>= fun w => .ok ((s.setStack rest).setReg d w, .next)) := by
  simp only [exec, execPop, resolveRegister_reg, except_ok_bind, hs]

/-- Settles O17: once the destination has resolved, an empty stack faults, and an entry goes the way of `wordOfSlot`. -/
theorem popMovesTopEntryToRegister : Obligations.PopMovesTopEntryToRegister := by
  intro a
  refine ⟨encodedAs_opcode_operands (.pop a), pop_raisesOperandFaults a, ?_⟩
  rintro s d rfl
  refine ⟨exec_pop_of_empty d, fun v rest hs => ⟨fun hrange => ?_, fun hfits => ?_⟩⟩
  · have hword := wordOfSlot_eq_error.2 ⟨hrange, rfl⟩
    rw [exec_pop_of_cons d hs, hword, except_error_bind, complete_error, raise_setWidth_eq_faulted]
  · have hword := wordOfSlot_eq_ok.2 ⟨hfits, rfl⟩
    rw [exec_pop_of_cons d hs, hword, except_ok_bind, complete_next, nextPc_eq_next, BitVec.ofNat_toNat]
    rfl

end Sys2Proof.Machine
end

/-! # What an `R V V` instruction's statement asks of its rule (R58, R62) -/

section
namespace Sys2Proof.Machine

open Sys2Proof.Spec

/-- Past the three operands `writeBinary` may still fault, but only when none of them has (R62). -/
theorem writeBinary_raisesFirstFault (s : State) (a b c : Operand) (f : Word → Word → Except Trap Word) :
    RaisesFirstFault [(.register, a), (.value, b), (.value, c)] (writeBinary s a b c f) :=
  (resolves_register a).bind fun _ =>
    (resolves_value s b).bind fun _ => (resolves_value s c).bind fun _ => raisesFirstFault_nil _

/-- Once its operands have resolved, `writeBinary` is the instruction's own check and then the write. -/
theorem writeBinary_of_values {s : State} {b c : Operand} {vb vc : Word} (d : RegIdx)
    (f : Word → Word → Except Trap Word) (hb : resolveValue s b = .ok vb) (hc : resolveValue s c = .ok vc) :
    writeBinary s (.reg d) b c f = f vb vc >>= fun v => .ok (s.setReg d v, .next) := by
  rw [writeBinary, resolveRegister_reg, except_ok_bind, hb, except_ok_bind, hc, except_ok_bind]

theorem complete_writeBinary {s : State} {b c : Operand} {vb vc v : Word} (d : RegIdx)
    {f : Word → Word → Except Trap Word} (hb : resolveValue s b = .ok vb) (hc : resolveValue s c = .ok vc)
    (hv : f vb vc = .ok v) :
    complete 3 s (writeBinary s (.reg d) b c f) = .next (written s d v 3) := by
  rw [writeBinary_of_values d f hb hc, hv, except_ok_bind, complete_next, setReg_setPc_eq_written]

/-- An instruction whose rule writes `f` of its two values, without a check of its own, writes `g` of their numbers when
`f` computes `g`. -/
theorem writesOfTwoValues_of_rule {mk : Operand → Operand → Operand → Instr} {f : Word → Word → Word}
    {g : Nat → Nat → Nat}
    (hexec : ∀ a b c s, exec (mk a b c) s = complete 3 s (writeBinary s a b c fun vb vc => .ok (f vb vc)))
    (hf : ∀ vb vc, f vb vc = BitVec.ofNat 15 (g vb.toNat vc.toNat)) : WritesOfTwoValues mk g := by
  intro s d b c vb vc hb hc
  rw [hexec, ← hf]
  exact complete_writeBinary d (resolveValue_of_reads hb) (resolveValue_of_reads hc) rfl

end Sys2Proof.Machine
end

/-! # eq and gt (41_comparison.md) -/

section
namespace Sys2Proof.Machine

open Sys2Proof.Spec

/-! ### eq (R68) -/

/-- Two Words are equal just when their numbers are. -/
theorem equalResult_eq_ofNat (b c : Word) : equalResult b c = BitVec.ofNat 15 (if b.toNat = c.toNat then 1 else 0) := by
  rw [equalResult, apply_ite (BitVec.ofNat 15)]
  exact if_congr BitVec.toNat_inj.symm rfl rfl

/-- Settles O18: `eq` is the binary register write of `equalResult`. -/
theorem eqWritesOneOnEqualValues : Obligations.EqWritesOneOnEqualValues := by
  refine ⟨fun a b c => ⟨encodedAs_opcode_operands (.eq a b c), ?_⟩, ?_⟩
  · exact raisesOperandFaults_of_rule (fun _ => rfl) fun s => writeBinary_raisesFirstFault s a b c _
  · exact writesOfTwoValues_of_rule (fun _ _ _ _ => rfl) equalResult_eq_ofNat

/-! ### gt (R69) -/

/-- `greaterResult` already compares the numbers, so only the result's width is left. -/
theorem greaterResult_eq_ofNat (b c : Word) :
    greaterResult b c = BitVec.ofNat 15 (if b.toNat > c.toNat then 1 else 0) :=
  (apply_ite (BitVec.ofNat 15) (b.toNat > c.toNat) 1 0).symm

/-- Settles O19: `gt` is the binary register write of `greaterResult`. -/
theorem gtWritesOneOnGreaterValue : Obligations.GtWritesOneOnGreaterValue := by
  refine ⟨fun a b c => ⟨encodedAs_opcode_operands (.gt a b c), ?_⟩, ?_⟩
  · exact raisesOperandFaults_of_rule (fun _ => rfl) fun s => writeBinary_raisesFirstFault s a b c _
  · exact writesOfTwoValues_of_rule (fun _ _ _ _ => rfl) greaterResult_eq_ofNat

end Sys2Proof.Machine
end

/-! # What an address operand asks of a rule (R34, R56) -/

section
namespace Sys2Proof.Machine

open Sys2Proof.Spec

theorem resolves_address (s : State) (o : Operand) : Resolves .address o (resolveAddress s o) := by
  cases o with
  | lit w => exact ⟨byteOf w, rfl⟩
  | reg r => exact ⟨byteOf (s.getReg r), rfl⟩
  | invalid raw => exact congrArg Except.error (operandTrap_eq .invalidAddress (.invalid raw))

/-- What the statements call reading a word address is the operand decoder's, doubled (R56). -/
theorem resolveAddress_of_reads {s : State} {o : Operand} {w : Word} (h : Reads s o w) :
    resolveAddress s o = .ok (byteOf w) := by
  obtain rfl | ⟨r, rfl, rfl⟩ := h
  · rfl
  · rfl

end Sys2Proof.Machine
end

/-! # jmp, jt, jf, call and ret (42_control_transfer.md) -/

section
namespace Sys2Proof.Machine

open Sys2Proof.Spec

/-! ### jmp (R70) -/

theorem jmp_raisesOperandFaults (a : Operand) : RaisesOperandFaults (.jmp a) [(.address, a)] :=
  raisesOperandFaults_of_rule (fun _ => rfl) fun s => (resolves_address s a).bind fun _ => raisesFirstFault_nil _

theorem exec_jmp_of_address {s : State} {a : Operand} {t : ByteOffset} (ha : resolveAddress s a = .ok t) :
    exec (.jmp a) s = .next (s.setPc t) := by
  rw [exec, execJmp, ha, except_ok_bind, complete_jump]

/-- Settles O20: the pc becomes the resolved address, which is twice the word address by `byteOf`. -/
theorem jmpSetsPcToTwiceTheWordAddress : Obligations.JmpSetsPcToTwiceTheWordAddress := fun a =>
  ⟨encodedAs_opcode_operands (.jmp a), jmp_raisesOperandFaults a,
    fun _ _ ha => exec_jmp_of_address (resolveAddress_of_reads ha)⟩

/-! ### jt and jf (R71, R72) -/

/-- The rule that `jt` and `jf` share: they differ in the test `taken` only. -/
def conditionalJump (s : State) (a b : Operand) (taken : Word → Bool) : Effect := do
  let v ← resolveValue s a
  let t ← resolveAddress s b
  .ok (s, jumpIf (taken v) t)

theorem exec_jt_eq (a b : Operand) (s : State) :
    exec (.jt a b) s = complete 2 s (conditionalJump s a b isNonZero) := rfl

theorem exec_jf_eq (a b : Operand) (s : State) :
    exec (.jf a b) s = complete 2 s (conditionalJump s a b fun v => !isNonZero v) := rfl

/-- The address operand is checked whether or not the jump is taken (D7). -/
theorem conditionalJump_raisesFirstFault (s : State) (a b : Operand) (taken : Word → Bool) :
    RaisesFirstFault [(.value, a), (.address, b)] (conditionalJump s a b taken) :=
  (resolves_value s a).bind fun _ => (resolves_address s b).bind fun _ => raisesFirstFault_nil _

theorem complete_jumpIf (n : Nat) (s : State) (cond : Bool) (t : ByteOffset) :
    complete n s (.ok (s, jumpIf cond t)) = .next (s.setPc (if cond then t else s.nextPc n)) := by
  cases cond with
  | true => rfl
  | false => rfl

/-- A conditional jump whose operands are read goes to twice the word address when its test's condition `p` on the value
holds, and on to the next instruction otherwise. -/
theorem complete_conditionalJump {s : State} {a b : Operand} {v w : Word} {taken : Word → Bool} {p : Prop}
    [Decidable p] (htaken : taken v = true ↔ p) (ha : Reads s a v) (hb : Reads s b w) :
    complete 2 s (conditionalJump s a b taken) =
      .next { s with pc := if p then BitVec.ofNat 17 (2 * w.toNat) else next s 2 } := by
  rw [conditionalJump, resolveValue_of_reads ha, except_ok_bind, resolveAddress_of_reads hb, except_ok_bind,
    complete_jumpIf, nextPc_eq_next, if_congr htaken rfl rfl]
  rfl

theorem isNonZero_eq_true {v : Word} : isNonZero v = true ↔ v.toNat ≠ 0 :=
  decide_eq_true_iff.trans (not_congr BitVec.toNat_inj.symm)

theorem not_isNonZero_eq_true {v : Word} : (!isNonZero v) = true ↔ v.toNat = 0 := by
  rw [Bool.not_eq_true', ← Bool.not_eq_true, isNonZero_eq_true, not_not]

/-- Settles O21: `jt` is the conditional jump on `isNonZero`. -/
theorem jtJumpsOnNonZero : Obligations.JtJumpsOnNonZero := by
  intro a b
  refine ⟨encodedAs_opcode_operands (.jt a b), ?_, ?_⟩
  · exact raisesOperandFaults_of_rule (exec_jt_eq a b) fun s => conditionalJump_raisesFirstFault s a b _
  · intro s v w ha hb
    exact complete_conditionalJump isNonZero_eq_true ha hb

/-- Settles O22: `jf` is the conditional jump on the negation of `isNonZero`. -/
theorem jfJumpsOnZero : Obligations.JfJumpsOnZero := by
  intro a b
  refine ⟨encodedAs_opcode_operands (.jf a b), ?_, ?_⟩
  · exact raisesOperandFaults_of_rule (exec_jf_eq a b) fun s => conditionalJump_raisesFirstFault s a b _
  · intro s v w ha hb
    exact complete_conditionalJump not_isNonZero_eq_true ha hb

/-! ### call (R73) -/

/-- From a pc whose operand slot lies in RAM, the return address fits a stack entry's 16 bits (log entry 11). -/
theorem returnAddress_toNat {s : State} (hpc : s.pc.toNat + 2 ≤ 65534) :
    (returnAddress s).toNat = s.pc.toNat / 2 + 2 :=
  Nat.mod_eq_of_lt (by omega)

/-- The target is resolved before the push, so its fault wins over a full stack. -/
theorem call_raisesOperandFaults (a : Operand) : RaisesOperandFaults (.call a) [(.address, a)] :=
  raisesOperandFaults_of_rule (fun _ => rfl) fun s => (resolves_address s a).bind fun _ => raisesFirstFault_nil _

theorem exec_call_of_full {s : State} {a : Operand} {t : ByteOffset} (ha : resolveAddress s a = .ok t)
    (hfull : s.sp = s.config.stackDepthMax) :
    exec (.call a) s = .next (faulted s .stackOverflow (returnAddress s).toNat) := by
  have hpush : s.pushEntry (returnAddress s) = .error ⟨.stackOverflow, (returnAddress s).setWidth 17⟩ :=
    pushEntry_eq_error.2 ⟨hfull, rfl⟩
  rw [exec, execCall, ha, except_ok_bind, hpush, except_error_bind, complete_error, raise_setWidth_eq_faulted]

theorem exec_call_of_room {s : State} {a : Operand} {t : ByteOffset} (ha : resolveAddress s a = .ok t)
    (hroom : s.sp ≠ s.config.stackDepthMax) :
    exec (.call a) s = .next ((s.setStack (returnAddress s :: s.stack)).setPc t) := by
  have hpush : s.pushEntry (returnAddress s) = .ok (s.setStack (returnAddress s :: s.stack)) :=
    pushEntry_eq_ok.2 ⟨hroom, rfl⟩
  rw [exec, execCall, ha, except_ok_bind, hpush, except_ok_bind, complete_jump]

/-- Settles O23: once the target has resolved, the two cases are those of `State.pushEntry`. -/
theorem callPushesReturnAddressAndJumps : Obligations.CallPushesReturnAddressAndJumps := by
  intro a
  refine ⟨encodedAs_opcode_operands (.call a), call_raisesOperandFaults a, ?_⟩
  refine fun s w ha hpc => ⟨fun hfull => ?_, fun hroom => ?_⟩
  · rw [← returnAddress_toNat hpc]
    exact exec_call_of_full (resolveAddress_of_reads ha) hfull
  · exact ⟨returnAddress s, returnAddress_toNat hpc, exec_call_of_room (resolveAddress_of_reads ha) hroom⟩

/-! ### ret (R74) -/

theorem exec_ret_of_empty {s : State} (hs : s.stack = []) : exec .ret s = .next s.halt := by
  simp only [exec, execRet, hs, complete_halt]

theorem exec_ret_of_cons {s : State} {w : Slot} {rest : List Slot} (hs : s.stack = w :: rest) :
    exec .ret s = .next ((s.setStack rest).setPc (BitVec.ofNat 17 (2 * w.toNat))) := by
  simp only [exec, execRet, hs, complete_jump]

/-- Settles O24: one case for each form of the stack. -/
theorem retPopsTargetOrHalts : Obligations.RetPopsTargetOrHalts :=
  ⟨encodedAs_opcode_operands .ret, fun _ => ⟨exec_ret_of_empty, fun _ _ => exec_ret_of_cons⟩⟩

end Sys2Proof.Machine
end

/-! # add, mult, mod, and, or and not (43_arithmetic_logic.md) -/

section
namespace Sys2Proof.Machine

open Sys2Proof.Spec

/-! ### What the unchecked `R V V` instructions share (R58, R62) -/

/-- An instruction whose rule writes `f` of its two values, without a check of its own, meets both parts of its statement
when `f` computes `g`: the operand faults are those of `writeBinary`, and so is the end. -/
theorem uncheckedWriter_of_rule {mk : Operand → Operand → Operand → Instr} {op : Nat} {f : Word → Word → Word}
    {g : Nat → Nat → Nat} (hencode : ∀ a b c, EncodedAs (mk a b c) op [a, b, c])
    (hexec : ∀ a b c s, exec (mk a b c) s = complete 3 s (writeBinary s a b c fun vb vc => .ok (f vb vc)))
    (hf : ∀ vb vc, f vb vc = BitVec.ofNat 15 (g vb.toNat vc.toNat)) :
    (∀ a b c, EncodedAs (mk a b c) op [a, b, c] ∧
      RaisesOperandFaults (mk a b c) [(.register, a), (.value, b), (.value, c)]) ∧ WritesOfTwoValues mk g := by
  refine ⟨fun a b c => ⟨hencode a b c, ?_⟩, writesOfTwoValues_of_rule hexec hf⟩
  exact raisesOperandFaults_of_rule (hexec a b c) fun s => writeBinary_raisesFirstFault s a b c _

/-! ### add and mult (R77, R78) -/

/-- Settles O25: `aluAdd` is by definition the exact sum reduced. -/
theorem addWritesSumModulo32768 : Obligations.AddWritesSumModulo32768 :=
  uncheckedWriter_of_rule (f := aluAdd) (fun a b c => encodedAs_opcode_operands (.add a b c)) (fun _ _ _ _ => rfl)
    fun _ _ => rfl

/-- Settles O26: `aluMult` is by definition the exact product reduced. -/
theorem multWritesProductModulo32768 : Obligations.MultWritesProductModulo32768 :=
  uncheckedWriter_of_rule (f := aluMult) (fun a b c => encodedAs_opcode_operands (.mult a b c)) (fun _ _ _ _ => rfl)
    fun _ _ => rfl

/-! ### mod (R79) -/

theorem aluMod_of_zero {b c : Word} (hc : c.toNat = 0) : aluMod b c = .error ⟨.divideByZero, 0⟩ :=
  if_pos (BitVec.eq_of_toNat_eq hc)

theorem aluMod_of_ne_zero {b c : Word} (hc : c.toNat ≠ 0) :
    aluMod b c = .ok (BitVec.ofNat 15 (b.toNat % c.toNat)) :=
  if_neg fun hzero => hc (congrArg BitVec.toNat hzero)

/-- The divisor is checked after the operands, so an operand's fault wins over a zero divisor. -/
theorem mod_raisesOperandFaults (a b c : Operand) :
    RaisesOperandFaults (.mod a b c) [(.register, a), (.value, b), (.value, c)] :=
  raisesOperandFaults_of_rule (fun _ => rfl) fun s => writeBinary_raisesFirstFault s a b c aluMod

theorem exec_mod_of_zero {s : State} {b c : Operand} {vb vc : Word} (d : RegIdx) (hb : resolveValue s b = .ok vb)
    (hc : resolveValue s c = .ok vc) (hzero : vc.toNat = 0) :
    exec (.mod (.reg d) b c) s = .next (faulted s .divideByZero 0) := by
  rw [exec, execMod, writeBinary_of_values d aluMod hb hc, aluMod_of_zero hzero, except_error_bind, complete_error]
  rfl

/-- Settles O28: once the operands have resolved, the two cases are those of `aluMod`. -/
theorem modWritesRemainderOrFaultsOnZero : Obligations.ModWritesRemainderOrFaultsOnZero := by
  intro a b c
  refine ⟨encodedAs_opcode_operands (.mod a b c), mod_raisesOperandFaults a b c, ?_⟩
  rintro s d vb vc rfl hb hc
  refine ⟨fun hzero => ?_, fun hnonzero => ?_⟩
  · exact exec_mod_of_zero d (resolveValue_of_reads hb) (resolveValue_of_reads hc) hzero
  · exact complete_writeBinary d (resolveValue_of_reads hb) (resolveValue_of_reads hc) (aluMod_of_ne_zero hnonzero)

/-! ### and and or (R80, R81) -/

/-- The AND of two Words is the AND of their numbers, which needs no reduction. -/
theorem word_and_eq_ofNat (b c : Word) : b &&& c = BitVec.ofNat 15 (Nat.land b.toNat c.toNat) :=
  BitVec.eq_of_toNat_eq (Nat.mod_eq_of_lt (b &&& c).isLt).symm

/-- The OR of two Words is the OR of their numbers, which needs no reduction. -/
theorem word_or_eq_ofNat (b c : Word) : b ||| c = BitVec.ofNat 15 (Nat.lor b.toNat c.toNat) :=
  BitVec.eq_of_toNat_eq (Nat.mod_eq_of_lt (b ||| c).isLt).symm

/-- Settles O29: `and` is the binary register write of the bitwise AND. -/
theorem andWritesBitwiseAnd : Obligations.AndWritesBitwiseAnd :=
  uncheckedWriter_of_rule (fun a b c => encodedAs_opcode_operands (.and a b c)) (fun _ _ _ _ => rfl)
    word_and_eq_ofNat

/-- Settles O30: `or` is the binary register write of the bitwise OR. -/
theorem orWritesBitwiseOr : Obligations.OrWritesBitwiseOr :=
  uncheckedWriter_of_rule (fun a b c => encodedAs_opcode_operands (.or a b c)) (fun _ _ _ _ => rfl)
    word_or_eq_ofNat

/-! ### not (R82) -/

/-- The number of the complement is the XOR of the numbers. -/
theorem aluNot_toNat (b : Word) : (aluNot b).toNat = Nat.xor b.toNat 0x7fff := BitVec.toNat_xor b 0x7fff

/-- XOR with fifteen ones is the complement, and a Word and its complement sum to 32767. -/
theorem xor_fifteenOnes (b : Word) : Nat.xor b.toNat 0x7fff = 32767 - b.toNat :=
  calc Nat.xor b.toNat 0x7fff
    _ = (aluNot b).toNat := (aluNot_toNat b).symm
    _ = (~~~b).toNat := congrArg BitVec.toNat BitVec.xor_allOnes
    _ = 32767 - b.toNat := BitVec.toNat_not

theorem execNot_raisesOperandFaults (a b : Operand) : RaisesOperandFaults (.not a b) [(.register, a), (.value, b)] :=
  raisesOperandFaults_of_rule (fun _ => rfl) fun s => writeUnary_raisesFirstFault s a b aluNot

/-- Settles O31: `not` is the unary register write of `aluNot`. -/
theorem notWritesComplementOfFifteenBits : Obligations.NotWritesComplementOfFifteenBits := by
  intro a b
  refine ⟨encodedAs_opcode_operands (.not a b), execNot_raisesOperandFaults a b, ?_⟩
  rintro s d vb rfl hb
  refine ⟨?_, xor_fifteenOnes vb⟩
  rw [← aluNot_toNat, BitVec.ofNat_toNat, BitVec.setWidth_eq]
  exact complete_writeUnary d aluNot (resolveValue_of_reads hb)

end Sys2Proof.Machine
end

/-! # rmem and wmem (44_memory_access.md) -/

section
namespace Sys2Proof.Machine

open Sys2Proof.Spec

/-! ### rmem (R86) -/

/-- The number of a word of RAM, its low byte at the lower offset (R33). -/
theorem Memory.read2_toNat (m : Memory) (j : Nat) :
    (m.read2 j).toNat = (m.read (j + 1)).toNat * 256 + (m.read j).toNat := by
  have hlow := (m.read j).isLt
  have hhigh := (m.read (j + 1)).isLt
  rw [Memory.read2, slotOfBytes, BitVec.toNat_ofNat]
  omega

/-- The stored word is checked after both operands, so an operand's fault wins over a word out of range. -/
theorem rmem_raisesOperandFaults (a b : Operand) : RaisesOperandFaults (.rmem a b) [(.register, a), (.address, b)] :=
  raisesOperandFaults_of_rule (fun _ => rfl) fun s =>
    (resolves_register a).bind fun _ => (resolves_address s b).bind fun _ => raisesFirstFault_nil _

/-- Once its operands have resolved, `rmem` checks the stored word's range and then loads it. -/
theorem exec_rmem_of_address {s : State} {b : Operand} {p : ByteOffset} (d : RegIdx)
    (hb : resolveAddress s b = .ok p) :
    exec (.rmem (.reg d) b) s =
      complete 2 s (wordOfSlot (s.ram.read2 p.toNat) >>= fun w => .ok (s.setReg d w, .next)) := by
  rw [exec, execRmem, resolveRegister_reg, except_ok_bind, hb, except_ok_bind]

/-- Settles O32: once the operands have resolved, the stored word goes the way of `wordOfSlot`. -/
theorem rmemLoadsStoredWord : Obligations.RmemLoadsStoredWord := by
  intro a b
  refine ⟨encodedAs_opcode_operands (.rmem a b), rmem_raisesOperandFaults a b, ?_⟩
  rintro s d w v rfl hb hv
  rw [← Memory.read2_toNat] at hv
  subst hv
  rw [exec_rmem_of_address d (resolveAddress_of_reads hb), byteOf_toNat]
  refine ⟨fun hrange => ?_, fun hfits => ?_⟩
  · have hword := wordOfSlot_eq_error.2 ⟨hrange, rfl⟩
    rw [hword, except_error_bind, complete_error, raise_setWidth_eq_faulted]
  · have hword := wordOfSlot_eq_ok.2 ⟨hfits, rfl⟩
    rw [hword, except_ok_bind, complete_next, setReg_setPc_eq_written, BitVec.ofNat_toNat]

/-! ### wmem (R87) -/

theorem wmem_raisesOperandFaults (a b : Operand) : RaisesOperandFaults (.wmem a b) [(.address, a), (.value, b)] :=
  raisesOperandFaults_of_rule (fun _ => rfl) fun s =>
    (resolves_address s a).bind fun _ => (resolves_value s b).bind fun _ => raisesFirstFault_nil _

theorem exec_wmem_of_reads {s : State} {a b : Operand} {w v : Word} (ha : Reads s a w) (hb : Reads s b v) :
    exec (.wmem a b) s =
      .next { s with ram := s.ram.write2 (2 * w.toNat) (v.setWidth 16), pc := next s 2 } := by
  rw [exec, execWmem, resolveAddress_of_reads ha, except_ok_bind, resolveValue_of_reads hb, except_ok_bind,
    complete_next, nextPc_eq_next, byteOf_toNat]
  rfl

/-- A Word goes to RAM as a slot of the same number, so its bytes are those of its number (R33). -/
theorem lowByte_setWidth (v : Word) : lowByte (v.setWidth 16) = BitVec.ofNat 8 (v.toNat % 256) := by
  rw [lowByte, BitVec.toNat_setWidth_of_le (by decide)]

theorem highByte_setWidth (v : Word) : highByte (v.setWidth 16) = BitVec.ofNat 8 (v.toNat / 256) := by
  rw [highByte, BitVec.toNat_setWidth_of_le (by decide)]

/-- Settles O33: the new RAM is the two-byte write at the word's offset, whose last byte still lies in RAM. -/
theorem wmemStoresWordLittleEndian : Obligations.WmemStoresWordLittleEndian := by
  intro a b
  refine ⟨encodedAs_opcode_operands (.wmem a b), wmem_raisesOperandFaults a b, ?_⟩
  intro s w v hwf ha hb
  have hinRam : 2 * w.toNat + 1 < 65536 := by have := w.isLt; omega
  refine ⟨_, exec_wmem_of_reads ha hb, Memory.wf_write2 _ hwf hinRam, ?_, ?_, ?_⟩
  · rw [Memory.read_write2_low _ hwf, lowByte_setWidth]
  · rw [Memory.read_write2_high _ hwf (Nat.lt_of_succ_lt hinRam), highByte_setWidth]
  · exact fun j hlow hhigh => Memory.read_write2_other _ hlow hhigh

end Sys2Proof.Machine
end

/-! # halt (45_system_io.md) -/

section
namespace Sys2Proof.Machine

/-! ### halt (R91) -/

theorem exec_halt (s : State) : exec .halt s = .next s.halt := by
  rw [exec, execHalt, complete_halt]

/-- Settles O36: `State.halt` is the record update with the sentinel pc and the status HALTED. -/
theorem haltSetsSentinelAndStatus : Obligations.HaltSetsSentinelAndStatus :=
  ⟨encodedAs_opcode_operands .halt, exec_halt⟩

end Sys2Proof.Machine
end

/-! # Precise faults (60_exceptions.md, R98) -/

section
namespace Sys2Proof.Machine

open Sys2Proof.Spec

/-! ### A fault of one instruction -/

theorem raise_eq_faulted (s : State) (tr : Trap) : s.raise tr = faulted s tr.kind tr.value.toNat := by
  rw [faulted, BitVec.ofNat_toNat, BitVec.setWidth_eq]
  rfl

/-- No write of an instruction is one of the status: only ending it can change that (R98). -/
theorem Writes.status_eq {s s' : State} {i : Instr} (hw : Writes s i s') : s'.status = s.status := by
  cases hw with
  | nothing | register | ram | push | call | pop | ret | output | input => rfl

/-- The only way for an instruction to end FAULTED is to raise: halting ends HALTED, and an instruction that waits or
goes on keeps the status it began with. -/
theorem Ends.eq_raise_of_faulted {s t : State} {i : Instr} (h : Ends s i t) (hs : s.status ≠ .faulted)
    (ht : t.status = .faulted) : ∃ tr : Trap, tr.kind ≠ .none ∧ t = s.raise tr := by
  cases h with
  | fault tr hk => exact ⟨tr, hk, rfl⟩
  | halt _ => cases ht
  | wait _ => exact absurd ht hs
  | goesOn s' p hw _ => exact absurd (hw.status_eq.symm.trans ht) hs

theorem exec_eq_faulted {i : Instr} {s t : State} (hs : s.status ≠ .faulted) (h : exec i s = .next t)
    (ht : t.status = .faulted) : ∃ k v, k ≠ FaultKind.none ∧ t = faulted s k v := by
  obtain ⟨tr, hk, rfl⟩ := (exec_ends h).eq_raise_of_faulted hs ht
  exact ⟨tr.kind, tr.value.toNat, hk, raise_eq_faulted s tr⟩

/-! ### The engine's turn and the start of its step (R38, R39, R61) -/

theorem step_of_engineTurn {s : State} {rest : List Turn} (hturn : EngineTurn s rest) :
    step s = engineStep (s.setSchedule rest) := by
  obtain hengine | ⟨hlast, rfl⟩ := hturn
  · exact step_engine_turn hengine
  · have hsame : s.setSchedule [] = s := (congrArg s.setSchedule hlast).symm
    rw [step_engine_last hlast, hsame]

/-- The model's start of a step is the statements': the resize check's rule is `resizedLen_eq_ite`'s, and a held step
makes none. -/
theorem beginStep_setSchedule (s : State) (rest : List Turn) :
    (s.setSchedule rest).beginStep = stepStart s rest := by
  cases hheld : s.held with
  | true =>
    rw [State.beginStep, State.setSchedule_held, if_pos hheld, stepStart, if_pos hheld]
    rfl
  | false =>
    have hnotHeld : ¬s.held = true := by simp [hheld]
    calc (s.setSchedule rest).beginStep
      _ = (s.setSchedule rest).resizeCheck := if_neg hnotHeld
      _ = (s.setSchedule rest).resizeCheck.setHeld false := congrArg (s.setSchedule rest).resizeCheck.setHeld hheld
      _ = stepStart s rest := by
        rw [State.resizeCheck, resizedLen_eq_ite, stepStart, if_neg hnotHeld]
        rfl

theorem step_of_running {s : State} {rest : List Turn} (hturn : EngineTurn s rest) (hs : s.status = .running) :
    step s = runInstruction (stepStart s rest) := by
  rw [step_of_engineTurn hturn, engineStep_running (s := s.setSchedule rest) hs, beginStep_setSchedule]

/-! ### A fault of the fetch or of the instruction -/

theorem runInstruction_eq_faulted {s t : State} (hs : s.status ≠ .faulted) (h : runInstruction s = .next t)
    (ht : t.status = .faulted) : ∃ k v, k ≠ FaultKind.none ∧ t = faulted s k v := by
  cases hf : s.fetch with
  | error tr =>
    rw [runInstruction_fault hf] at h
    cases h
    exact ⟨tr.kind, tr.value.toNat, fetch_error_kind hf, raise_eq_faulted s tr⟩
  | ok i =>
    rw [runInstruction_exec hf] at h
    exact exec_eq_faulted hs h ht

/-- Settles O14: `exec_ends` leaves raising as the only end in FAULTED, and a RUNNING engine's step is its fetch and
instruction from `stepStart`, where the status is still RUNNING. -/
theorem faultsArePrecise : Obligations.FaultsArePrecise := by
  refine ⟨fun _ _ _ => exec_eq_faulted, fun s t rest hturn hs hstep => ?_⟩
  have hstart : (stepStart s rest).status ≠ .faulted := by simp [stepStart, hs]
  rw [step_of_running hturn hs] at hstep
  exact runInstruction_eq_faulted hstart hstep

end Sys2Proof.Machine
end

/-! # Reset (70_reset_and_hazards.md, R113) -/

section
namespace Sys2Proof.Machine

/-! ### RAM seeded from the image (R29, R113) -/

theorem Memory.read_ofImage_of_lt {image : List Byte} (hfit : image.length ≤ 65536) {j : Nat}
    (hj : j < image.length) : (Memory.ofImage image).read j = image[j] := by
  rw [Memory.read_ofImage hfit, List.getD_eq_getElem _ _ hj]

theorem Memory.read_ofImage_of_le {image : List Byte} (hfit : image.length ≤ 65536) {j : Nat}
    (hj : image.length ≤ j) : (Memory.ofImage image).read j = 0 := by
  rw [Memory.read_ofImage hfit, List.getD_eq_default _ _ hj]

/-! ### The host's reset turn (R106, R113) -/

theorem step_reset_turn {s : State} {rest : List Turn} (h : s.schedule = .host .reset :: rest) :
    step s = .next (s.setSchedule rest).applyReset := by
  rw [step_host_turn h, hostAct]

/-- Settles O53: the RAM asked for is the one seeded from the image, and `State.applyReset` is the record update. -/
theorem resetRestoresInitialState : Obligations.ResetRestoresInitialState :=
  fun s _ hturn hfit =>
    ⟨Memory.ofImage s.config.image, step_reset_turn hturn, Memory.wf_ofImage hfit,
      fun _ => Memory.read_ofImage_of_lt hfit, fun _ => Memory.read_ofImage_of_le hfit⟩

end Sys2Proof.Machine
end

/-! # The decoder reads what the encoder writes (30_encoding.md, R50 to R53, R58 to R60) -/

section
namespace Sys2Proof

open Sys2Proof.Machine Sys2Proof.Spec

/-! ### The operands of an instruction and their bytes (R51) -/

/-- The operands in slot order, without the kinds of their slots. -/
def Instr.operandList (i : Instr) : List Operand := i.operands.map (·.2)

/-- The bytes of the operand slots, in RAM order. -/
def Instr.operandBytes (i : Instr) : List Byte := i.operandList.flatMap fun o => slotBytes o.raw

theorem Instr.operandList_length (i : Instr) : i.operandList.length = i.operandCount := List.length_map _

theorem Instr.wf_iff (i : Instr) : i.wf = true ↔ ∀ o ∈ i.operandList, o.wf = true := by
  rw [wf, operandList, List.all_eq_true, List.forall_mem_map]

theorem Instr.operandBytes_length (i : Instr) : i.operandBytes.length = 2 * i.operandCount := by
  have hslot (o : Operand) : (slotBytes o.raw).length = 2 := rfl
  rw [operandBytes, List.length_flatMap, ← operandList_length]
  simp [hslot, Nat.mul_comm]

/-- The opcode's slot has the opcode for its low byte and 0 for its high byte (R51, R64). -/
theorem slotBytes_setWidth (op : Byte) : slotBytes (op.setWidth 16) = [op, 0] := by
  have hslot : op.setWidth 16 = slotOfBytes op 0 := by simp [slotOfBytes]
  rw [hslot, slotBytes, lowByte_slotOfBytes, highByte_slotOfBytes]

theorem encode_eq_opcode_cons (i : Instr) : encode i = i.opcode :: 0 :: i.operandBytes := by
  rw [encode, encodeSlots, List.flatMap_cons, slotBytes_setWidth, List.flatMap_map, Instr.operandBytes,
    Instr.operandList, List.flatMap_map]
  rfl

theorem slotBytes_raw_classify (lo hi : Byte) : slotBytes (classify (slotOfBytes lo hi)).raw = [lo, hi] := by
  rw [raw_classify, slotBytes, lowByte_slotOfBytes, highByte_slotOfBytes]

theorem classify_slotBytes_raw {o : Operand} (h : o.wf = true) :
    classify (slotOfBytes (lowByte o.raw) (highByte o.raw)) = o := by
  rw [slotOfBytes_bytes, classify_raw h]

/-! ### What each format answers (R51) -/

theorem format0_eq_ok {j i : Instr} {bytes rest : List Byte} (hj : j.operandList = []) :
    format0 j bytes = .ok (i, rest) ↔ i = j ∧ i.wf = true ∧ bytes = i.operandBytes ++ rest := by
  constructor
  · intro h
    cases h
    simp [Instr.wf_iff, Instr.operandBytes, hj]
  · rintro ⟨rfl, -, rfl⟩
    simp [format0, Instr.operandBytes, hj]

theorem format1_eq_ok {mk : Operand → Instr} {i : Instr} {bytes rest : List Byte}
    (hmk : ∀ a, (mk a).operandList = [a]) :
    format1 mk bytes = .ok (i, rest) ↔ ∃ a, i = mk a ∧ i.wf = true ∧ bytes = i.operandBytes ++ rest := by
  constructor
  · intro h
    unfold format1 at h
    split at h <;> cases h
    exact ⟨_, rfl, by simp [Instr.wf_iff, hmk, classify_wf],
      by simp [Instr.operandBytes, hmk, slotBytes_raw_classify]⟩
  · rintro ⟨a, rfl, hwf, rfl⟩
    simp only [Instr.wf_iff, hmk, List.forall_mem_singleton] at hwf
    simp [Instr.operandBytes, hmk, slotBytes, format1, classify_slotBytes_raw hwf]

theorem format2_eq_ok {mk : Operand → Operand → Instr} {i : Instr} {bytes rest : List Byte}
    (hmk : ∀ a b, (mk a b).operandList = [a, b]) :
    format2 mk bytes = .ok (i, rest) ↔ ∃ a b, i = mk a b ∧ i.wf = true ∧ bytes = i.operandBytes ++ rest := by
  constructor
  · intro h
    unfold format2 at h
    split at h <;> cases h
    exact ⟨_, _, rfl, by simp [Instr.wf_iff, hmk, classify_wf],
      by simp [Instr.operandBytes, hmk, slotBytes_raw_classify]⟩
  · rintro ⟨a, b, rfl, hwf, rfl⟩
    simp only [Instr.wf_iff, hmk, List.forall_mem_cons] at hwf
    obtain ⟨ha, hb, -⟩ := hwf
    simp [Instr.operandBytes, hmk, slotBytes, format2, classify_slotBytes_raw ha, classify_slotBytes_raw hb]

theorem format3_eq_ok {mk : Operand → Operand → Operand → Instr} {i : Instr} {bytes rest : List Byte}
    (hmk : ∀ a b c, (mk a b c).operandList = [a, b, c]) :
    format3 mk bytes = .ok (i, rest) ↔ ∃ a b c, i = mk a b c ∧ i.wf = true ∧ bytes = i.operandBytes ++ rest := by
  constructor
  · intro h
    unfold format3 at h
    split at h <;> cases h
    exact ⟨_, _, _, rfl, by simp [Instr.wf_iff, hmk, classify_wf],
      by simp [Instr.operandBytes, hmk, slotBytes_raw_classify]⟩
  · rintro ⟨a, b, c, rfl, hwf, rfl⟩
    simp only [Instr.wf_iff, hmk, List.forall_mem_cons] at hwf
    obtain ⟨ha, hb, hc, -⟩ := hwf
    simp [Instr.operandBytes, hmk, slotBytes, format3, classify_slotBytes_raw ha, classify_slotBytes_raw hb,
      classify_slotBytes_raw hc]

/-! ### What the opcode map and the decoder answer (R52, R58) -/

/-- What the opcode map reads is well formed and stands for the bytes taken: one case for each row of R58, grouped by
format. -/
theorem decodeOpcode_ok {op : Byte} {bytes rest : List Byte} {i : Instr}
    (h : decodeOpcode op bytes = .ok (i, rest)) : i.wf = true ∧ bytes = i.operandBytes ++ rest := by
  unfold decodeOpcode at h
  split at h
  case h_1 | h_19 | h_22 => exact ((format0_eq_ok rfl).1 h).2
  case h_3 | h_4 | h_7 | h_18 | h_20 | h_21 =>
    obtain ⟨_, -, hread⟩ := (format1_eq_ok fun _ => rfl).1 h
    exact hread
  case h_2 | h_8 | h_9 | h_15 | h_16 | h_17 =>
    obtain ⟨_, _, -, hread⟩ := (format2_eq_ok fun _ _ => rfl).1 h
    exact hread
  case h_5 | h_6 | h_10 | h_11 | h_12 | h_13 | h_14 =>
    obtain ⟨_, _, _, -, hread⟩ := (format3_eq_ok fun _ _ _ => rfl).1 h
    exact hread
  case h_23 => cases h

/-- An instruction's opcode selects the format that reads its operands back. -/
theorem decodeOpcode_operandBytes {i : Instr} (hwf : i.wf = true) (rest : List Byte) :
    decodeOpcode i.opcode (i.operandBytes ++ rest) = .ok (i, rest) := by
  cases i with
  | halt | ret | noop => exact (format0_eq_ok rfl).2 ⟨rfl, hwf, rfl⟩
  | push | pop | jmp | call | out | inp => exact (format1_eq_ok fun _ => rfl).2 ⟨_, rfl, hwf, rfl⟩
  | set | jt | jf | not | rmem | wmem => exact (format2_eq_ok fun _ _ => rfl).2 ⟨_, _, rfl, hwf, rfl⟩
  | eq | gt | add | mult | mod | and | or => exact (format3_eq_ok fun _ _ _ => rfl).2 ⟨_, _, _, rfl, hwf, rfl⟩

/-- Decoding answers exactly the well-formed instructions that the bytes begin with, whatever the opcode slot's high
byte (R52). -/
theorem decode_eq_ok {bytes rest : List Byte} {i : Instr} :
    decode bytes = .ok (i, rest) ↔ i.wf = true ∧ ∃ hi, bytes = i.opcode :: hi :: (i.operandBytes ++ rest) := by
  constructor
  · intro h
    rcases bytes with _ | ⟨op, _ | ⟨hi, operandBytes⟩⟩
    · cases h
    · cases h
    · obtain ⟨hwf, hbytes⟩ := decodeOpcode_ok (op := op) h
      exact ⟨hwf, hi, by rw [hbytes, decode_opcode h]⟩
  · rintro ⟨hwf, hi, rfl⟩
    exact decodeOpcode_operandBytes hwf rest

/-- Settles O1: the encoding is the opcode slot and the operand bytes, which `decode_eq_ok` reads back. -/
theorem decodeAfterEncodeReturnsInstruction : Obligations.DecodeAfterEncodeReturnsInstruction := by
  intro i rest hwf
  rw [encode_eq_opcode_cons]
  exact decode_eq_ok.2 ⟨hwf, 0, rfl⟩

/-- Settles O2: the converse direction of `decode_eq_ok`. -/
theorem decodedBytesAreAnEncoding : Obligations.DecodedBytesAreAnEncoding := by
  intro bytes rest i h
  obtain ⟨hwf, hi, rfl⟩ := decode_eq_ok.1 h
  exact ⟨hwf, i.opcode, hi, i.operandBytes, rfl, encode_eq_opcode_cons i⟩

/-- Settles O3: eight closed byte strings, decoded by evaluation. -/
theorem sampleEncodingsDecode : Obligations.SampleEncodingsDecode := by
  unfold Obligations.SampleEncodingsDecode
  decide

/-- Settles O4: the decoder passes over the second byte. -/
theorem opcodeHighByteIsIgnored : Obligations.OpcodeHighByteIsIgnored := fun _ _ _ _ => rfl

/-! ### What the opcode map refuses (R59, R61) -/

/-- Settles O5: the two cases of `decodeOpcode_takes`; what takes its operands' bytes is no illegal opcode. -/
theorem illegalOpcodesAreTwentyTwoAndAbove : Obligations.IllegalOpcodesAreTwentyTwoAndAbove := by
  intro op hi bytes
  obtain ⟨habove, hillegal⟩ | ⟨hbelow, htakes⟩ := decodeOpcode_takes op bytes
  · exact ⟨fun _ => hillegal, fun hle => absurd habove (Nat.not_lt.mpr hle)⟩
  · refine ⟨fun hge => absurd hge (by omega), fun _ x hx => ?_⟩
    have hx : decodeOpcode op bytes = .error (.illegalOpcode x) := hx
    rw [hx] at htakes
    exact htakes

end Sys2Proof
end

/-! # The fetch (30_encoding.md, R61; 60_exceptions.md, R99) -/

section
namespace Sys2Proof.Machine

open Sys2Proof.Spec

/-! ### How the bytes end too soon (R58, R61) -/

theorem format1_error {mk : Operand → Instr} {bytes : List Byte} {e : DecodeError}
    (h : format1 mk bytes = .error e) : e = .truncated 1 := by
  unfold format1 at h
  split at h <;> cases h
  rfl

theorem format2_error {mk : Operand → Operand → Instr} {bytes : List Byte} {e : DecodeError}
    (h : format2 mk bytes = .error e) : e = .truncated 2 := by
  unfold format2 at h
  split at h <;> cases h
  rfl

theorem format3_error {mk : Operand → Operand → Operand → Instr} {bytes : List Byte} {e : DecodeError}
    (h : format3 mk bytes = .error e) : e = .truncated 3 := by
  unfold format3 at h
  split at h <;> cases h
  rfl

/-- A report that the bytes end too soon names the operand count of the opcode: one case for each row of R58, grouped by
format. -/
theorem operandCounts_of_truncated {op : Byte} {bytes : List Byte} {n : Nat}
    (h : decodeOpcode op bytes = .error (.truncated n)) : operandCounts[op.toNat]? = some n := by
  unfold decodeOpcode at h
  split at h
  case h_1 | h_19 | h_22 => cases h
  case h_3 hop | h_4 hop | h_7 hop | h_18 hop | h_20 hop | h_21 hop =>
    cases format1_error h
    rw [hop]
    rfl
  case h_2 hop | h_8 hop | h_9 hop | h_15 hop | h_16 hop | h_17 hop =>
    cases format2_error h
    rw [hop]
    rfl
  case h_5 hop | h_6 hop | h_10 hop | h_11 hop | h_12 hop | h_13 hop | h_14 hop =>
    cases format3_error h
    rw [hop]
    rfl
  case h_23 => cases h

/-- The spec's table ends with opcode 21 (R58). -/
theorem le_of_operandCounts {k n : Nat} (h : operandCounts[k]? = some n) : k ≤ 21 := by
  obtain ⟨hk, -⟩ := List.getElem?_eq_some_iff.1 h
  exact Nat.le_of_lt_succ hk

theorem operandCounts_le_three {k n : Nat} (h : operandCounts[k]? = some n) : n ≤ 3 := by
  have hall : ∀ m ∈ operandCounts, m ≤ 3 := by decide
  exact hall n (List.mem_of_getElem? h)

/-- For an opcode of the table, whether the operands' bytes are there decides what the opcode map answers. -/
theorem decodeOpcode_of_operandCounts {op : Byte} {n : Nat} (hcount : operandCounts[op.toNat]? = some n)
    (bytes : List Byte) :
    (bytes.length < 2 * n ∧ decodeOpcode op bytes = .error (.truncated n)) ∨
    (2 * n ≤ bytes.length ∧ ∃ i rest, decodeOpcode op bytes = .ok (i, rest)) := by
  obtain ⟨habove, -⟩ | ⟨-, htakes⟩ := decodeOpcode_takes op bytes
  · exact absurd habove (Nat.not_lt.mpr (le_of_operandCounts hcount))
  · match hread : decodeOpcode op bytes with
    | .ok (i, rest) =>
      rw [hread] at htakes
      have hlen : bytes.length = 2 * i.operandCount + rest.length := htakes
      have hopcode := operandCounts_opcode i
      rw [decodeOpcode_opcode hread, hcount, Option.some.injEq] at hopcode
      exact .inr ⟨by omega, i, rest, rfl⟩
    | .error (.truncated m) =>
      rw [hread] at htakes
      have hm := operandCounts_of_truncated hread
      rw [hcount, Option.some.injEq] at hm
      subst hm
      exact .inl ⟨htakes, rfl⟩
    | .error (.illegalOpcode _) =>
      rw [hread] at htakes
      exact htakes.elim

/-! ### The bytes the decoder sees (R50) -/

theorem Memory.bytes_add (m : Memory) (a n k : Nat) : m.bytes a (n + k) = m.bytes a n ++ m.bytes (a + n) k := by
  induction n generalizing a with
  | zero => rw [Nat.zero_add]; rfl
  | succ n ih =>
    have haddr : a + (n + 1) = a + 1 + n := by omega
    rw [Nat.succ_add, Memory.bytes, ih, Memory.bytes, List.cons_append, haddr]

/-- Decoding reads no byte after the instruction. -/
theorem decode_append {bytes rest : List Byte} {i : Instr} (h : decode bytes = .ok (i, rest)) (more : List Byte) :
    decode (bytes ++ more) = .ok (i, rest ++ more) := by
  obtain ⟨hwf, hi, rfl⟩ := decode_eq_ok.1 h
  exact decode_eq_ok.2 ⟨hwf, hi, by rw [List.cons_append, List.cons_append, List.append_assoc]⟩

theorem operandCount_le_three (i : Instr) : i.operandCount ≤ 3 := operandCounts_le_three (operandCounts_opcode i)

/-- From a pc inside RAM the decoder sees the opcode slot first. -/
theorem fetchBytes_eq_cons {s : State} (hpc : s.pc.toNat ≤ 65534) :
    s.fetchBytes = s.ram.read s.pc.toNat :: s.ram.read (s.pc.toNat + 1) ::
      s.ram.bytes (s.pc.toNat + 2) (min 6 (65534 - s.pc.toNat)) := by
  have hsize : min maxInstrBytes (ramBytes - s.pc.toNat) = min 6 (65534 - s.pc.toNat) + 1 + 1 := by
    simp only [maxInstrBytes, ramBytes]
    omega
  rw [State.fetchBytes, hsize]
  rfl

/-- Operand slots laid out in RAM from `a` on have the numbers of the words there (R33, R53). -/
theorem rawNumber_of_bytes {m : Memory} {operands : List Operand} {rest : List Byte} {a n : Nat}
    (h : m.bytes a n = (operands.flatMap fun o => slotBytes o.raw) ++ rest) {k : Nat} (hk : k < operands.length) :
    operands[k]?.map rawNumber = some (m.read2 (a + 2 * k)).toNat := by
  induction operands generalizing a n k with
  | nil => exact absurd hk (Nat.not_lt_zero k)
  | cons o operands ih =>
    rcases n with _ | _ | n
    · simp [Memory.bytes, slotBytes] at h
    · simp [Memory.bytes, slotBytes] at h
    · simp only [Memory.bytes, List.flatMap_cons, slotBytes, List.cons_append, List.nil_append, List.cons.injEq] at h
      obtain ⟨hlow, hhigh, hrest⟩ := h
      cases k with
      | zero =>
        rw [Nat.mul_zero, Nat.add_zero, Memory.read2, hlow, hhigh, slotOfBytes_lowByte_highByte, raw_toNat]
        rfl
      | succ k =>
        have haddr : a + 2 * (k + 1) = a + 1 + 1 + 2 * k := by omega
        rw [List.getElem?_cons_succ, haddr]
        exact ih hrest (Nat.lt_of_succ_lt_succ hk)

/-! ### The checks of the fetch, in order (R99) -/

theorem fetch_of_odd {s : State} (h : s.pc.toNat % 2 = 1) : s.fetch = .error ⟨.malformedOpcode, s.pc⟩ :=
  if_pos h

theorem fetch_of_past_ram {s : State} (heven : s.pc.toNat % 2 = 0) (h : 65534 < s.pc.toNat) :
    s.fetch = .error ⟨.fetchOutOfRange, s.pc⟩ := by
  have hnotOdd : ¬s.pc.toNat % 2 = 1 := by omega
  rw [State.fetch, if_neg hnotOdd]
  exact if_pos h

section

variable {s : State} (heven : s.pc.toNat % 2 = 0) (hpc : s.pc.toNat ≤ 65534)
include heven hpc

theorem fetch_of_illegalOpcode {op : Byte} (h : decode s.fetchBytes = .error (.illegalOpcode op)) :
    s.fetch = .error ⟨.malformedOpcode, op.setWidth 17⟩ := by
  simp [State.fetch, lastSlot, heven, Nat.not_lt.mpr hpc, h]

theorem fetch_of_truncated {n : Nat} (h : decode s.fetchBytes = .error (.truncated n)) :
    s.fetch = .error ⟨.fetchOutOfRange, s.pc + BitVec.ofNat 17 (2 * n)⟩ := by
  simp [State.fetch, lastSlot, heven, Nat.not_lt.mpr hpc, h]

theorem fetch_of_decode {i : Instr} {rest : List Byte} (h : decode s.fetchBytes = .ok (i, rest)) :
    s.fetch = .ok i := by
  simp [State.fetch, lastSlot, heven, Nat.not_lt.mpr hpc, h]

end

/-- Bytes of RAM that decode to exactly one instruction are the ones the fetch decodes. -/
theorem fetch_of_exact_bytes {s : State} {i : Instr} {n : Nat} (heven : s.pc.toNat % 2 = 0)
    (hfit : s.pc.toNat + n ≤ 65536) (h : decode (s.ram.bytes s.pc.toNat n) = .ok (i, [])) : s.fetch = .ok i := by
  have hcount := operandCount_le_three i
  have hn : n = 2 * (1 + i.operandCount) := by simpa using decode_length h
  have hsize : min maxInstrBytes (ramBytes - s.pc.toNat) = n + (min 8 (65536 - s.pc.toNat) - n) := by
    simp only [maxInstrBytes, ramBytes]
    omega
  have hdecode := decode_append h (s.ram.bytes (s.pc.toNat + n) (min 8 (65536 - s.pc.toNat) - n))
  rw [← Memory.bytes_add, ← hsize] at hdecode
  exact fetch_of_decode heven (by omega) hdecode

/-! ### The step (R61) -/

/-- Settles O10: `fetch_of_exact_bytes` from the start of the step, whose pc and RAM are those of `s`. -/
theorem stepRunsDecodedInstruction : Obligations.StepRunsDecodedInstruction := by
  intro s rest i n hturn hs heven hfit h
  rw [step_of_running hturn hs]
  exact runInstruction_exec (fetch_of_exact_bytes (s := stepStart s rest) heven hfit h)

/-- Settles O12: a stopped engine's step keeps the state it is given, which is `s` with the host's plan moved on. -/
theorem stoppedEngineStepsAreNoOps : Obligations.StoppedEngineStepsAreNoOps := by
  intro s rest hturn hs
  rw [step_of_engineTurn hturn]
  exact engineStep_stopped (s := s.setSchedule rest) hs

theorem runInstruction_eq_faulted_of_fetch {s : State} {k : FaultKind} {v : ByteOffset}
    (h : s.fetch = .error ⟨k, v⟩) : runInstruction s = .next (faulted s k v.toNat) := by
  rw [runInstruction_fault h, raise_eq_faulted]

section

variable {s : State} {n : Nat} (heven : s.pc.toNat % 2 = 0)
  (hcount : operandCounts[(s.ram.read s.pc.toNat).toNat]? = some n)
include heven hcount

/-- With operand slots past the end of RAM, the fetch reports where the last of them would start. -/
theorem runInstruction_of_operands_past_ram (hpc : s.pc.toNat ≤ 65534) (hpast : 65534 < s.pc.toNat + 2 * n) :
    runInstruction s = .next (faulted s .fetchOutOfRange (s.pc.toNat + 2 * n)) := by
  have hcountMax := operandCounts_le_three hcount
  have hshort : decode s.fetchBytes = .error (.truncated n) := by
    rw [fetchBytes_eq_cons hpc]
    obtain ⟨-, herror⟩ | ⟨hlong, -⟩ := decodeOpcode_of_operandCounts hcount
      (s.ram.bytes (s.pc.toNat + 2) (min 6 (65534 - s.pc.toNat)))
    · exact herror
    · rw [Memory.bytes_length] at hlong
      omega
  have hend : (s.pc + BitVec.ofNat 17 (2 * n)).toNat = s.pc.toNat + 2 * n := by
    rw [BitVec.toNat_add, BitVec.toNat_ofNat]
    omega
  rw [runInstruction_eq_faulted_of_fetch (fetch_of_truncated heven hpc hshort), hend]

/-- With its operand slots in RAM, the instruction has the opcode and the raw operands that lie there. -/
theorem fetch_spells_instruction (hfit : s.pc.toNat + 2 * n ≤ 65534) :
    ∃ i : Instr, s.fetch = .ok i ∧ i.opcode = s.ram.read s.pc.toNat ∧ i.operandCount = n ∧
      ∀ k, k < n → i.operandList[k]?.map rawNumber = some (s.ram.read2 (s.pc.toNat + 2 * (k + 1))).toNat := by
  have hpc : s.pc.toNat ≤ 65534 := by omega
  have hcountMax := operandCounts_le_three hcount
  obtain ⟨hshort, -⟩ | ⟨-, i, rest, hread⟩ := decodeOpcode_of_operandCounts hcount
    (s.ram.bytes (s.pc.toNat + 2) (min 6 (65534 - s.pc.toNat)))
  · rw [Memory.bytes_length] at hshort
    omega
  · have hopcode := decodeOpcode_opcode hread
    have hn : i.operandCount = n := by
      rw [← hopcode, operandCounts_opcode, Option.some.injEq] at hcount
      exact hcount
    refine ⟨i, fetch_of_decode heven hpc (rest := rest) ?_, hopcode, hn, fun k hk => ?_⟩
    · rw [fetchBytes_eq_cons hpc]
      exact hread
    · have haddr : s.pc.toNat + 2 * (k + 1) = s.pc.toNat + 2 + 2 * k := by omega
      have hk : k < i.operandList.length := by rwa [i.operandList_length, hn]
      rw [haddr]
      exact rawNumber_of_bytes (decodeOpcode_ok hread).2 hk

end

theorem runInstruction_of_illegalOpcode {s : State} (heven : s.pc.toNat % 2 = 0) (hpc : s.pc.toNat ≤ 65534)
    (hop : 21 < (s.ram.read s.pc.toNat).toNat) :
    runInstruction s = .next (faulted s .malformedOpcode (s.ram.read s.pc.toNat).toNat) := by
  have hillegal : decode s.fetchBytes = .error (.illegalOpcode (s.ram.read s.pc.toNat)) := by
    rw [fetchBytes_eq_cons hpc]
    exact (illegalOpcodesAreTwentyTwoAndAbove _ _ _).1 hop
  rw [runInstruction_eq_faulted_of_fetch (fetch_of_illegalOpcode heven hpc hillegal),
    BitVec.toNat_setWidth_of_le (by decide)]

/-- Settles O11: each check is a lemma about the fetch from the start of the step, whose pc and RAM are those of `s`. -/
theorem fetchChecksInOrder : Obligations.FetchChecksInOrder := by
  intro s rest hturn hs
  rw [step_of_running hturn hs]
  refine ⟨fun hodd => ?_, fun heven hpast => ?_, fun heven hpc hop => ?_,
    fun n heven hpc hcount => ⟨fun hpast => ?_, fun hfit => ?_⟩⟩
  · exact runInstruction_eq_faulted_of_fetch (fetch_of_odd (s := stepStart s rest) hodd)
  · exact runInstruction_eq_faulted_of_fetch (fetch_of_past_ram (s := stepStart s rest) heven hpast)
  · exact runInstruction_of_illegalOpcode (s := stepStart s rest) heven hpc hop
  · exact runInstruction_of_operands_past_ram (s := stepStart s rest) heven hcount hpc hpast
  · obtain ⟨i, hfetch, hopcode, hlen, hraw⟩ := fetch_spells_instruction (s := stepStart s rest) heven hcount hfit
    refine ⟨i, hopcode, hlen, fun k hk => ?_, runInstruction_exec hfetch⟩
    have hslot := hraw k hk
    rw [Memory.read2_toNat, Instr.operandList, List.getElem?_map, Option.map_map] at hslot
    exact hslot

end Sys2Proof.Machine
end

/-! # What a step keeps (10_state.md; 20_memory.md section 4; 60_exceptions.md sections 2 and 7) -/

section
namespace Sys2Proof.Machine

open Sys2Proof.Spec

/-! ### The buffer length (R27, R38, R40) -/

/-- The buffer length is one the invariant allows for `sp` entries and a greatest depth. -/
structure BufLenOk (depthMax sp len : Nat) : Prop where
  power : ∃ k, 8 ≤ k ∧ len = 2 ^ k
  bound : depthMax ≤ 32767 → len ≤ 65536
  fits : sp ≤ len - 1

theorem power_double {len : Nat} (h : ∃ k, 8 ≤ k ∧ len = 2 ^ k) : ∃ k, 8 ≤ k ∧ 2 * len = 2 ^ k := by
  obtain ⟨k, hk, rfl⟩ := h
  exact ⟨k + 1, by omega, (Nat.pow_succ' ..).symm⟩

/-- A power of two above the floor halves to one that is still at least the floor. -/
theorem power_half {len : Nat} (h : ∃ k, 8 ≤ k ∧ len = 2 ^ k) (hfloor : 256 < len) :
    ∃ k, 8 ≤ k ∧ len / 2 = 2 ^ k ∧ len = 2 * (len / 2) := by
  obtain ⟨k, hk, rfl⟩ := h
  obtain ⟨j, rfl⟩ : ∃ j, k = j + 1 := ⟨k - 1, by omega⟩
  have hj : j ≠ 7 := by
    rintro rfl
    exact absurd hfloor (by decide)
  have hhalf : 2 ^ (j + 1) / 2 = 2 ^ j := by rw [Nat.pow_succ, Nat.mul_div_cancel _ Nat.two_pos]
  exact ⟨j, by omega, hhalf, by rw [hhalf, Nat.pow_succ']⟩

theorem power_le_of_lt_65536 {len : Nat} (h : ∃ k, 8 ≤ k ∧ len = 2 ^ k) (hlt : len < 65536) : len ≤ 32768 := by
  obtain ⟨k, -, rfl⟩ := h
  have hk : k < 16 := (Nat.pow_lt_pow_iff_right (a := 2) (by decide)).1 hlt
  exact Nat.pow_le_pow_right (n := 2) (j := 15) (by decide) (by omega)

theorem power_ge_floor {len : Nat} (h : ∃ k, 8 ≤ k ∧ len = 2 ^ k) : 256 ≤ len := by
  obtain ⟨k, hk, rfl⟩ := h
  exact Nat.pow_le_pow_right (n := 2) (by decide) hk

/-- The resize check keeps the length allowed and makes room for one more entry (R37, R40). -/
theorem BufLenOk.resized {depthMax sp len : Nat} (h : BufLenOk depthMax sp len) (hsp : sp ≤ depthMax) :
    BufLenOk depthMax sp (resizedLen sp len) ∧ sp + 1 ≤ resizedLen sp len - 1 := by
  obtain ⟨hpower, hbound, hfits⟩ := h
  have hfloor := power_ge_floor hpower
  obtain ⟨hgrow, hlen⟩ | ⟨-, hquarter, habove, hlen⟩ | ⟨hbelow, -, hlen⟩ := resizedLen_cases sp len
  · rw [hlen]
    refine ⟨⟨power_double hpower, fun hdepth => ?_, by omega⟩, by omega⟩
    have := power_le_of_lt_65536 hpower (by omega)
    omega
  · rw [hlen]
    obtain ⟨k, hk, hhalf, htwice⟩ := power_half hpower habove
    exact ⟨⟨⟨k, hk, hhalf⟩, fun hdepth => by have := hbound hdepth; omega, by omega⟩, by omega⟩
  · rw [hlen]
    exact ⟨⟨hpower, hbound, hfits⟩, by omega⟩

theorem State.Inv.bufLenOk {s : State} (h : s.Inv) : BufLenOk s.config.stackDepthMax s.sp s.bufLen :=
  ⟨h.bufLenPower, h.bufLenBound, h.stackFits⟩

/-! ### The start of a step and how it ends without going on (R39, R61, R98) -/

/-- A state in which an instruction runs: the invariant holds, the engine is RUNNING, no step is held, and the resize
check has left room for one more entry. -/
structure State.Ready (s : State) : Prop where
  inv : s.Inv
  running : s.status = .running
  notHeld : ¬s.held = true
  room : s.sp + 1 ≤ s.bufLen - 1

theorem State.Inv.setSchedule {s : State} (h : s.Inv) (plan : List Turn) : (s.setSchedule plan).Inv :=
  { h with }

theorem beginStep_of_held {s : State} (h : s.held = true) : s.beginStep = s.setHeld false := if_pos h

theorem beginStep_of_not_held {s : State} (h : ¬s.held = true) : s.beginStep = s.resizeCheck := if_neg h

/-- A held step finds the room its first resize check left; any other makes the check now (R39). -/
theorem State.Inv.beginStep_ready {s : State} (h : s.Inv) (hs : s.status = .running) : s.beginStep.Ready := by
  by_cases hheld : s.held = true
  · rw [beginStep_of_held hheld]
    exact ⟨{ h with heldRunning := nofun }, hs, nofun, (h.heldRunning hheld).2⟩
  · obtain ⟨⟨hpower, hbound, hfits⟩, hroom⟩ := h.bufLenOk.resized h.stackDepth
    rw [beginStep_of_not_held hheld]
    refine ⟨{ h with
      bufLenPower := hpower
      bufLenBound := hbound
      stackFits := hfits
      heldRunning := fun htrue => absurd htrue hheld }, hs, hheld, hroom⟩

namespace State.Ready

variable {s : State} (h : s.Ready)
include h

theorem raise {tr : Trap} (hk : tr.kind ≠ .none) : (s.raise tr).Inv :=
  { h.inv with
    pcEven := fun _ => h.inv.pcEven (by simp [h.running])
    pcSentinel := nofun
    recordEmpty := fun hne => absurd rfl hne
    recordSet := fun _ => ⟨hk, rfl⟩
    heldRunning := fun hheld => absurd hheld h.notHeld }

theorem halt : s.halt.Inv :=
  { h.inv with
    pcEven := fun hne => absurd rfl hne
    pcSentinel := fun _ => rfl
    recordEmpty := fun _ => h.inv.recordEmpty (by simp [h.running])
    recordSet := nofun
    heldRunning := fun hheld => absurd hheld h.notHeld }

theorem wait : (s.setHeld true).Inv :=
  { h.inv with heldRunning := fun _ => ⟨h.running, h.room⟩ }

end State.Ready

/-! ### The writes of an instruction -/

/-- A channel has room when it is unbounded or below its capacity (R105). -/
theorem hasRoom_eq_true {cap : Option Nat} {q : List Byte} :
    hasRoom cap q = true ↔ ∀ n, cap = some n → q.length < n := by
  cases cap with
  | none => simp [hasRoom]
  | some n => simp [hasRoom]

theorem State.Inv.setReg {s : State} (h : s.Inv) (d : RegIdx) (v : Word) : (s.setReg d v).Inv :=
  { h with }

/-- A word's two bytes lie inside RAM (R34). -/
theorem State.Inv.storeWord {s : State} (h : s.Inv) (w : Word) (v : Slot) :
    (s.setRam (s.ram.write2 (byteOf w).toNat v)).Inv := by
  have hin : (byteOf w).toNat + 1 < 65536 := by
    have := w.isLt
    rw [byteOf_toNat]
    omega
  exact { h with ramCanonical := Memory.wf_write2 v h.ramCanonical hin }

/-- A push needs the room that the resize check has left, and a stack that is not full (R35). -/
theorem State.Ready.pushEntry {s : State} (h : s.Ready) {v : Slot} (hv : v.toNat ≤ 32768)
    (hs : s.sp ≠ s.config.stackDepthMax) : (s.setStack (v :: s.stack)).Inv := by
  have hdepth := h.inv.stackDepth
  exact { h.inv with
    stackDepth := show s.sp + 1 ≤ s.config.stackDepthMax by omega
    stackEntries := List.forall_mem_cons.2 ⟨hv, h.inv.stackEntries⟩
    stackFits := h.room
    heldRunning := fun hheld => absurd hheld h.notHeld }

theorem State.Ready.popEntry {s : State} (h : s.Ready) {v : Slot} {rest : List Slot} (hs : s.stack = v :: rest) :
    (s.setStack rest).Inv := by
  have hsp : s.sp = rest.length + 1 := congrArg List.length hs
  have hdepth := h.inv.stackDepth
  have hfits := h.inv.stackFits
  have hentries := h.inv.stackEntries
  rw [hs] at hentries
  exact { h.inv with
    stackDepth := show rest.length ≤ s.config.stackDepthMax by omega
    stackEntries := (List.forall_mem_cons.1 hentries).2
    stackFits := show rest.length ≤ s.bufLen - 1 by omega
    heldRunning := fun hheld => absurd hheld h.notHeld }

theorem State.Inv.acceptOutput {s : State} (h : s.Inv) (b : Byte) (hroom : hasRoom s.config.outCap s.outQ = true) :
    (s.setOutQ (s.outQ ++ [b])).Inv := by
  refine { h with outQBound := fun n hn => ?_ }
  have hlt := hasRoom_eq_true.1 hroom n hn
  rw [State.setOutQ_outQ, List.length_append]
  exact hlt

theorem State.Inv.takeInput {s : State} (h : s.Inv) {b : Byte} {q : List Byte} (hq : s.inQ = b :: q) :
    (s.setInQ q).Inv := by
  refine { h with inQBound := fun n hn => ?_ }
  have hle := h.inQBound n hn
  rw [hq] at hle
  exact Nat.le_of_succ_le hle

/-- The return address of a fetched `call` is at most 32768, since its operand slot lies in RAM (R73). -/
theorem returnAddress_le {s : State} {a : Operand} (hf : s.fetch = .ok (.call a)) :
    (returnAddress s).toNat ≤ 32768 := by
  have hpc : s.pc.toNat + 2 ≤ 65534 := (fetch_ok hf).2
  rw [returnAddress_toNat hpc]
  omega

theorem Writes.inv {s s' : State} {i : Instr} (hw : Writes s i s') (h : s.Ready) (hf : s.fetch = .ok i) :
    s'.Inv := by
  cases hw with
  | nothing => exact h.inv
  | register d v => exact h.inv.setReg d v
  | ram a b w v => exact h.inv.storeWord w _
  | push a v hs => exact h.pushEntry (by have := v.isLt; rw [BitVec.toNat_setWidth_of_le (by decide)]; omega) hs
  | call a hs => exact h.pushEntry (returnAddress_le hf) hs
  | pop d v w rest hs => exact (h.popEntry hs).setReg d w
  | ret v rest hs => exact h.popEntry hs
  | output a b _ hr => exact h.inv.acceptOutput b hr
  | input d b q hq => exact (h.inv.takeInput hq).setReg d _

/-! ### Where an instruction leaves the pc (R19, R75) -/

/-- Every target is a slot's offset: even, and at most the end of RAM. -/
theorem Target.even_le {s : State} {i : Instr} {p : ByteOffset} (hp : Target s i p) (h : s.Inv)
    (hf : s.fetch = .ok i) : p.toNat % 2 = 0 ∧ p.toNat ≤ 65536 := by
  cases hp with
  | next =>
    obtain ⟨heven, hin⟩ := fetch_ok hf
    rw [State.nextPc, BitVec.toNat_add, BitVec.toNat_ofNat]
    omega
  | word w =>
    have := w.isLt
    rw [byteOf_toNat]
    omega
  | ret v rest hs =>
    have hv : v.toNat ≤ 32768 := h.stackEntries v (by rw [hs]; exact List.mem_cons_self)
    rw [BitVec.toNat_ofNat]
    omega

theorem State.Inv.setPc {s : State} (h : s.Inv) (hs : s.status = .running) {p : ByteOffset}
    (hp : p.toNat % 2 = 0 ∧ p.toNat ≤ 65536) : (s.setPc p).Inv :=
  { h with
    pcEven := fun _ => hp
    pcSentinel := fun hhalted => absurd (hs.symm.trans hhalted) nofun
    recordSet := fun hfaulted => absurd (hs.symm.trans hfaulted) nofun }

/-! ### The engine's step and the host's acts -/

theorem Ends.inv {s t : State} {i : Instr} (he : Ends s i t) (h : s.Ready) (hf : s.fetch = .ok i) : t.Inv := by
  cases he with
  | fault tr hk => exact h.raise hk
  | halt => exact h.halt
  | wait => exact h.wait
  | goesOn s' p hw hp => exact (hw.inv h hf).setPc (hw.status_eq.trans h.running) (hp.even_le h.inv hf)

theorem engineStep_inv {s t : State} (h : s.Inv) (hstep : engineStep s = .next t) : t.Inv := by
  obtain ⟨-, rfl⟩ | ⟨hs, tr, hk, -, rfl⟩ | ⟨hs, i, hf, he⟩ := engineStep_cases hstep
  · exact h
  · exact (h.beginStep_ready hs).raise hk
  · exact he.inv (h.beginStep_ready hs) hf

/-- Parameters that the spec allows have an image that fits RAM (R29). -/
theorem image_length_le_of_wf {c : Config} (h : c.wf = true) : c.image.length ≤ 65536 := by
  simp only [Config.wf, Bool.and_eq_true, decide_eq_true_eq] at h
  exact h.2

/-- Reset meets the invariant in any state whose parameters and channels do (R32, R113). -/
theorem applyReset_inv {s : State} (hconfig : s.config.wf = true)
    (hout : ∀ n, s.config.outCap = some n → s.outQ.length ≤ n)
    (hin : ∀ n, s.config.inCap = some n → s.inQ.length ≤ n) : s.applyReset.Inv where
  ramCanonical := Memory.wf_ofImage (image_length_le_of_wf hconfig)
  configAllowed := hconfig
  pcEven := fun _ => ⟨rfl, Nat.zero_le _⟩
  pcSentinel := nofun
  recordEmpty := fun _ => ⟨rfl, rfl, rfl⟩
  recordSet := nofun
  stackDepth := Nat.zero_le _
  stackEntries := nofun
  bufLenPower := ⟨8, Nat.le_refl 8, rfl⟩
  bufLenBound := fun _ => Nat.le_of_ble_eq_true rfl
  stackFits := Nat.zero_le _
  heldRunning := nofun
  outQBound := hout
  inQBound := hin

theorem hostAct_inv {a : HostAction} {s t : State} (h : s.Inv) (hact : hostAct a s = .next t) : t.Inv := by
  obtain ⟨-, rfl⟩ | ⟨-, b, q, hq, rfl⟩ | ⟨b, -, -, hroom, rfl⟩ | ⟨-, rfl⟩ | ⟨-, rfl⟩ := hostAct_cases hact
  · exact applyReset_inv h.configAllowed h.outQBound h.inQBound
  · refine { h with outQBound := fun n hn => ?_ }
    have hle := h.outQBound n hn
    rw [hq] at hle
    exact Nat.le_of_succ_le hle
  · refine { h with inQBound := fun n hn => ?_ }
    have hlt := hasRoom_eq_true.1 hroom n hn
    rw [State.setInQ_inQ, List.length_append]
    exact hlt
  · exact { h with }
  · exact { h with }

/-- A step is the engine's or one act of the host (R106). -/
theorem step_cases {s t : State} (h : step s = .next t) :
    (∃ rest, EngineTurn s rest ∧ engineStep (s.setSchedule rest) = .next t) ∨
    ∃ a rest, s.schedule = .host a :: rest ∧ hostAct a (s.setSchedule rest) = .next t := by
  match hplan : s.schedule with
  | [] =>
    have hturn : EngineTurn s [] := .inr ⟨hplan, rfl⟩
    exact .inl ⟨[], hturn, (step_of_engineTurn hturn).symm.trans h⟩
  | .engine :: rest =>
    have hturn : EngineTurn s rest := .inl hplan
    exact .inl ⟨rest, hturn, (step_of_engineTurn hturn).symm.trans h⟩
  | .host a :: rest => exact .inr ⟨a, rest, rfl, (step_host_turn hplan).symm.trans h⟩

/-- Settles O52: the engine's step keeps the invariant by way of `State.Ready`, and each act of the host keeps it. -/
theorem stepKeepsInvariant : Obligations.StepKeepsInvariant := by
  intro s t h hstep
  obtain ⟨rest, -, hengine⟩ | ⟨a, rest, -, hact⟩ := step_cases hstep
  · exact engineStep_inv (h.setSchedule rest) hengine
  · exact hostAct_inv (h.setSchedule rest) hact

/-- Settles O51: the state after reset is one that reset gives. -/
theorem resetStateSatisfiesInvariant : Obligations.ResetStateSatisfiesInvariant :=
  applyReset_inv (s := State.reset) (by decide) nofun nofun

end Sys2Proof.Machine
end

/-! # What each instruction leaves unchanged (10_state.md; 60_exceptions.md sections 2 and 7) -/

section
namespace Sys2Proof.Machine

open Sys2Proof.Spec

/-! ### The frame of an instruction's writes -/

/-- The operand that a register write names is operand a of one of the 12 instructions with an R slot (R16, R58). -/
theorem destination_of_register_slot {i : Instr} {d : RegIdx} (h : i.operands.head? = some (.register, .reg d)) :
    destination i = some d := by
  cases i with
  | halt | ret | noop => cases h
  | push | jmp | jt | jf | wmem | call | out => cases h
  | set | pop | eq | gt | add | mult | mod | and | or | not | rmem | inp => cases h; rfl

theorem registersFrameExcept_setReg (s : State) (d : RegIdx) (v : Word) :
    RegistersFrameExcept s (s.setReg d v) (some d) := by
  intro r hr
  exact s.getReg_setReg_ne v fun heq => hr (congrArg some heq.symm)

namespace Writes

variable {s s' : State} {i : Instr} (hw : Writes s i s')
include hw

theorem hiddenFrame : HiddenFrame s s' := by
  cases hw with
  | nothing | register | ram | push | call | pop | ret | output | input => exact ⟨rfl, rfl, rfl⟩

theorem closed_eq : s'.outClosed = s.outClosed ∧ s'.inClosed = s.inClosed := by
  cases hw with
  | nothing | register | ram | push | call | pop | ret | output | input => exact ⟨rfl, rfl⟩

theorem held_eq : s'.held = s.held := by
  cases hw with
  | nothing | register | ram | push | call | pop | ret | output | input => rfl

theorem record_eq : s'.faultKind = s.faultKind ∧ s'.faultIp = s.faultIp ∧ s'.faultValue = s.faultValue := by
  cases hw with
  | nothing | register | ram | push | call | pop | ret | output | input => exact ⟨rfl, rfl, rfl⟩

theorem registers : RegistersFrameExcept s s' (destination i) := by
  cases hw with
  | register d v hi =>
    rw [destination_of_register_slot hi]
    exact registersFrameExcept_setReg s d v
  | pop d v w rest hs => exact registersFrameExcept_setReg s d w
  | input d b q hq => exact registersFrameExcept_setReg s d _
  | nothing | ram | push | call | ret | output => exact fun _ _ => rfl

theorem ram_eq : s'.ram = s.ram ∨ ∃ a b, i = .wmem a b := by
  cases hw with
  | ram a b => exact .inr ⟨a, b, rfl⟩
  | nothing | register | push | call | pop | ret | output | input => exact .inl rfl

/-- The stack is as before, or has one entry more on top, or one less (R26). -/
theorem stack_cases : s'.stack = s.stack ∨ (∃ v, s'.stack = v :: s.stack ∧ ∃ a, i = .push a ∨ i = .call a) ∨
    ∃ v, s.stack = v :: s'.stack ∧ ((∃ a, i = .pop a) ∨ i = .ret) := by
  cases hw with
  | push a v => exact .inr (.inl ⟨_, rfl, a, .inl rfl⟩)
  | call a => exact .inr (.inl ⟨_, rfl, a, .inr rfl⟩)
  | pop d v w rest hs => exact .inr (.inr ⟨v, hs, .inl ⟨_, rfl⟩⟩)
  | ret v rest hs => exact .inr (.inr ⟨v, hs, .inr rfl⟩)
  | nothing | register | ram | output | input => exact .inl rfl

theorem outQ_cases : s'.outQ = s.outQ ∨ ∃ b, s'.outQ = s.outQ ++ [b] ∧ ∃ a, i = .out a := by
  cases hw with
  | output a b => exact .inr ⟨b, rfl, a, rfl⟩
  | nothing | register | ram | push | call | pop | ret | input => exact .inl rfl

theorem inQ_cases : s'.inQ = s.inQ ∨ ∃ b, s.inQ = b :: s'.inQ ∧ ∃ a, i = .inp a := by
  cases hw with
  | input d b q hq => exact .inr ⟨b, hq, _, rfl⟩
  | nothing | register | ram | push | call | pop | ret | output => exact .inl rfl

end Writes

/-! ### The frame of an instruction -/

/-- `t` is `s` but for what the end of an instruction may change: the pc, the status, the record and the held mark. -/
structure AgreesButForEnd (s t : State) : Prop where
  regs : t.regs = s.regs
  stack : t.stack = s.stack
  bufLen : t.bufLen = s.bufLen
  ram : t.ram = s.ram
  outQ : t.outQ = s.outQ
  outClosed : t.outClosed = s.outClosed
  inQ : t.inQ = s.inQ
  inClosed : t.inClosed = s.inClosed
  config : t.config = s.config
  schedule : t.schedule = s.schedule

/-- Whatever its end, an instruction leaves its writes, or no write at all. -/
theorem Ends.exists_writes {s t : State} {i : Instr} (he : Ends s i t) :
    ∃ s', Writes s i s' ∧ AgreesButForEnd s' t := by
  cases he with
  | fault | halt | wait => exact ⟨s, .nothing i, by constructor <;> rfl⟩
  | goesOn s' p hw _ => exact ⟨s', hw, by constructor <;> rfl⟩

/-- What every instruction leaves unchanged but for its own writes. -/
structure InstrFrame (i : Instr) (s t : State) : Prop where
  registers : RegistersFrameExcept s t (destination i)
  ram : t.ram = s.ram ∨ ∃ a b, i = .wmem a b
  stack : t.stack = s.stack ∨ (∃ v, t.stack = v :: s.stack ∧ ∃ a, i = .push a ∨ i = .call a) ∨
    ∃ v, s.stack = v :: t.stack ∧ ((∃ a, i = .pop a) ∨ i = .ret)
  outQ : t.outQ = s.outQ ∨ ∃ b, t.outQ = s.outQ ++ [b] ∧ ∃ a, i = .out a
  inQ : t.inQ = s.inQ ∨ ∃ b, s.inQ = b :: t.inQ ∧ ∃ a, i = .inp a
  outClosed : t.outClosed = s.outClosed
  inClosed : t.inClosed = s.inClosed
  hidden : HiddenFrame s t
  held : t.held = s.held ∨ t = s.setHeld true ∧ ∃ a, i = .out a ∨ i = .inp a
  record : RecordFrame s t ∨ t = s.halt ∧ (i = .halt ∨ i = .ret ∧ s.stack = [])

theorem Ends.held_cases {s t : State} {i : Instr} (he : Ends s i t) :
    t.held = s.held ∨ t = s.setHeld true ∧ ∃ a, i = .out a ∨ i = .inp a := by
  cases he with
  | fault | halt => exact .inl rfl
  | goesOn s' p hw _ => exact .inl hw.held_eq
  | wait hi => exact .inr ⟨rfl, exists_or.2 hi⟩

theorem Ends.record_cases {s t : State} {i : Instr} (he : Ends s i t) :
    RecordFrame s t ∨ t = s.halt ∧ (i = .halt ∨ i = .ret ∧ s.stack = []) := by
  cases he with
  | fault tr hk => exact .inl (.inr ⟨tr.kind, tr.value.toNat, hk, raise_eq_faulted s tr⟩)
  | halt hi => exact .inr ⟨rfl, hi⟩
  | wait => exact .inl (.inl ⟨rfl, rfl, rfl, rfl⟩)
  | goesOn s' p hw _ => exact .inl (.inl ⟨hw.status_eq, hw.record_eq⟩)

theorem Ends.frame {s t : State} {i : Instr} (he : Ends s i t) : InstrFrame i s t := by
  obtain ⟨s', hw, hagree⟩ := he.exists_writes
  exact {
    registers := fun r hr => (State.getReg_congr hagree.regs r).trans (hw.registers r hr)
    ram := hagree.ram ▸ hw.ram_eq
    stack := hagree.stack ▸ hw.stack_cases
    outQ := hagree.outQ ▸ hw.outQ_cases
    inQ := hagree.inQ ▸ hw.inQ_cases
    outClosed := hagree.outClosed.trans hw.closed_eq.1
    inClosed := hagree.inClosed.trans hw.closed_eq.2
    hidden := by
      obtain ⟨hlen, hconfig, hplan⟩ := hw.hiddenFrame
      exact ⟨hagree.bufLen.trans hlen, hagree.config.trans hconfig, hagree.schedule.trans hplan⟩
    held := he.held_cases
    record := he.record_cases }

theorem exec_frame {i : Instr} {s t : State} (h : exec i s = .next t) : InstrFrame i s t := (exec_ends h).frame

/-! ### The frames of the instruction families (R62, R98) -/

theorem ramFrame_of_eq {s t : State} (h : t.ram = s.ram) : RamFrame s t := fun j => congrArg (·.read j) h

/-- An instruction that writes no register leaves the whole register file. -/
theorem InstrFrame.regs_eq {i : Instr} {s t : State} (hf : InstrFrame i s t) (hi : destination i = none) :
    t.regs = s.regs := by
  refine Vector.ext fun k hk => ?_
  exact hf.registers ⟨k, hk⟩ (by simp [hi])

theorem InstrFrame.ramFrame {i : Instr} {s t : State} (hf : InstrFrame i s t) (hi : ¬∃ a b, i = .wmem a b) :
    RamFrame s t :=
  ramFrame_of_eq (hf.ram.resolve_right hi)

theorem InstrFrame.stack_writer {i : Instr} {s t : State} (hf : InstrFrame i s t) (hne : t.stack ≠ s.stack) :
    (∃ a, i = .push a ∨ i = .pop a ∨ i = .call a) ∨ i = .ret := by
  obtain ⟨v, -, a, hpush | hcall⟩ | ⟨v, -, ⟨a, hpop⟩ | hret⟩ := hf.stack.resolve_left hne
  · exact .inl ⟨a, .inl hpush⟩
  · exact .inl ⟨a, .inr (.inr hcall)⟩
  · exact .inl ⟨a, .inr (.inl hpop)⟩
  · exact .inr hret

theorem InstrFrame.outQ_writer {i : Instr} {s t : State} (hf : InstrFrame i s t) (hne : t.outQ ≠ s.outQ) :
    ∃ a, i = .out a := by
  obtain ⟨b, -, hout⟩ := hf.outQ.resolve_left hne
  exact hout

theorem InstrFrame.inQ_writer {i : Instr} {s t : State} (hf : InstrFrame i s t) (hne : t.inQ ≠ s.inQ) :
    ∃ a, i = .inp a := by
  obtain ⟨b, -, hin⟩ := hf.inQ.resolve_left hne
  exact hin

/-- Only `out` and `in` touch a channel or wait. -/
theorem InstrFrame.channels_and_held {i : Instr} {s t : State} (hf : InstrFrame i s t)
    (hi : ¬∃ a, i = .out a ∨ i = .inp a) : ChannelFrame s t ∧ t.held = s.held := by
  obtain ⟨hout, hin⟩ := not_or.1 (mt exists_or.2 hi)
  have houtQ : t.outQ = s.outQ := not_not.1 (mt hf.outQ_writer hout)
  have hinQ : t.inQ = s.inQ := not_not.1 (mt hf.inQ_writer hin)
  exact ⟨⟨houtQ, hf.outClosed, hinQ, hf.inClosed⟩, hf.held.resolve_right fun ⟨_, hwait⟩ => hi hwait⟩

/-- Only `halt` and `ret` halt. -/
theorem InstrFrame.recordFrame {i : Instr} {s t : State} (hf : InstrFrame i s t) (hi : ¬(i = .halt ∨ i = .ret)) :
    RecordFrame s t :=
  hf.record.resolve_right fun ⟨_, hhalts⟩ => hi (hhalts.imp_right And.left)

/-- Settles O40: none of these ten writes RAM, the stack or a channel, halts or waits. -/
theorem registerWritersFrame : Obligations.RegisterWritersFrame := by
  intro i s t hi h
  have hf := exec_frame h
  have hstack : t.stack = s.stack := by
    by_contra hne
    obtain ⟨a, rfl | rfl | rfl⟩ | rfl := hf.stack_writer hne <;> simp at hi
  obtain ⟨hchannels, hheld⟩ := hf.channels_and_held (by rintro ⟨a, rfl | rfl⟩ <;> simp at hi)
  have hrecord := hf.recordFrame (by rintro (rfl | rfl) <;> simp at hi)
  exact ⟨hf.registers, hf.ramFrame (by rintro ⟨a, b, rfl⟩; simp at hi), hstack, hchannels, hf.hidden, hheld, hrecord⟩

/-- Settles O41: these four write only the stack, and a `pop` its register; of them only `ret` can halt. -/
theorem stackInstructionsFrame : Obligations.StackInstructionsFrame := by
  intro i s t hi h
  have hf := exec_frame h
  obtain ⟨hchannels, hheld⟩ := hf.channels_and_held (by rintro ⟨a, rfl | rfl⟩ <;> simp at hi)
  refine ⟨hf.registers, hf.ramFrame (by rintro ⟨a, b, rfl⟩; simp at hi), hchannels, hf.hidden, hheld, hf.stack, ?_⟩
  obtain hrecord | ⟨rfl, rfl | ⟨hret, hempty⟩⟩ := hf.record
  · exact .inl hrecord
  · simp at hi
  · exact .inr ⟨hret, hempty, rfl⟩

/-- Settles O42: these five write nothing; of them only `halt` halts. -/
theorem jumpsNoopAndHaltFrame : Obligations.JumpsNoopAndHaltFrame := by
  intro i s t hi h
  have hf := exec_frame h
  have hdestination : destination i = none := by
    obtain ⟨a, rfl⟩ | ⟨a, b, rfl | rfl⟩ | rfl | rfl := hi <;> rfl
  have hstack : t.stack = s.stack := by
    by_contra hne
    obtain ⟨a, rfl | rfl | rfl⟩ | rfl := hf.stack_writer hne <;> simp at hi
  obtain ⟨hchannels, hheld⟩ := hf.channels_and_held (by rintro ⟨a, rfl | rfl⟩ <;> simp at hi)
  refine ⟨hf.regs_eq hdestination, hf.ramFrame (by rintro ⟨a, b, rfl⟩; simp at hi), hstack, hchannels, hf.hidden, hheld,
    ?_⟩
  obtain hrecord | ⟨rfl, hhalt | ⟨rfl, -⟩⟩ := hf.record
  · exact .inl hrecord
  · exact .inr ⟨hhalt, rfl⟩
  · simp at hi

/-- A `wmem` writes no byte, or the two at the address its operand a resolves to (R87). -/
theorem Ends.wmem_ram_cases {s t : State} {a b : Operand} (he : Ends s (.wmem a b) t) :
    t.ram = s.ram ∨ ∃ p v, resolveAddress s a = .ok p ∧ t.ram = s.ram.write2 p.toNat v := by
  obtain ⟨s', hw, hagree⟩ := he.exists_writes
  rw [hagree.ram]
  cases hw with
  | nothing => exact .inl rfl
  | register d v hi => cases hi
  | ram a b w v ha => exact .inr ⟨byteOf w, _, ha, rfl⟩

/-- Settles O43: `Ends.wmem_ram_cases` for RAM, and `InstrFrame` for the rest. -/
theorem wmemFrame : Obligations.WmemFrame := by
  intro a b s t h
  have hf := exec_frame h
  have hstack : t.stack = s.stack := hf.stack.resolve_right (by simp)
  obtain ⟨hchannels, hheld⟩ := hf.channels_and_held (by simp)
  refine ⟨fun p hp j hlow hhigh => ?_, fun tr htr => ?_, hf.regs_eq rfl, hstack, hchannels, hf.hidden, hheld,
    hf.recordFrame (by simp)⟩
  · obtain hram | ⟨q, v, hq, hram⟩ := (exec_ends h).wmem_ram_cases
    · rw [hram]
    · cases hp.symm.trans hq
      rw [hram, Memory.read_write2_other v hlow hhigh]
  · obtain hram | ⟨q, v, hq, -⟩ := (exec_ends h).wmem_ram_cases
    · exact ramFrame_of_eq hram
    · cases htr.symm.trans hq

/-- Settles O44: these two write only their channel and, an `in`, its register; neither halts. -/
theorem channelInstructionsFrame : Obligations.ChannelInstructionsFrame := by
  rintro i s t ⟨a, hi⟩ h
  have hf := exec_frame h
  have hram := hf.ramFrame (by rintro ⟨a, b, rfl⟩; simp at hi)
  have hstack : t.stack = s.stack := by
    by_contra hne
    obtain ⟨a, rfl | rfl | rfl⟩ | rfl := hf.stack_writer hne <;> simp at hi
  have hrecord := hf.recordFrame (by rintro (rfl | rfl) <;> simp at hi)
  exact ⟨hf.registers, hram, hstack, hf.hidden, hrecord, hf.outClosed, hf.inClosed, hf.outQ, hf.inQ,
    hf.held.imp_right And.left⟩

/-! ### Which instructions write which place (R16, R26, R28, R105) -/

/-- Settles O45: every register but the one operand a names keeps its value. -/
theorem onlyTwelveInstructionsWriteRegisters : Obligations.OnlyTwelveInstructionsWriteRegisters := by
  intro i s t r h hchanged
  by_contra hother
  exact hchanged ((exec_frame h).registers r hother)

/-- Settles O46: `InstrFrame` names the only writers of each place. -/
theorem eachPlaceHasItsOwnWriters : Obligations.EachPlaceHasItsOwnWriters := by
  intro i s t h
  have hf := exec_frame h
  exact ⟨hf.ram.resolve_left, hf.stack_writer, hf.outQ_writer, hf.inQ_writer, hf.outClosed, hf.inClosed, hf.hidden⟩

end Sys2Proof.Machine
end

/-! # What every step leaves unchanged, and that there is one (10_state.md section 4; 60_exceptions.md) -/

section
namespace Sys2Proof.Machine

open Sys2Proof.Spec

/-! ### The status (R23, R102) -/

/-- An instruction halts at the sentinel, or faults where it stands, or leaves the status. -/
theorem Ends.status_cases {s t : State} {i : Instr} (he : Ends s i t) :
    t.status = s.status ∨ (t.status = .halted ∧ t.pc = haltSentinel) ∨
      (t.status = .faulted ∧ t.faultIp = s.pc ∧ t.pc = s.pc) := by
  cases he with
  | fault => exact .inr (.inr ⟨rfl, rfl, rfl⟩)
  | halt => exact .inr (.inl ⟨rfl, rfl⟩)
  | wait => exact .inl rfl
  | goesOn s' p hw _ => exact .inl hw.status_eq

theorem engineStep_status_cases {s t : State} (h : engineStep s = .next t) :
    t.status = s.status ∨ (s.status = .running ∧ t.status = .halted ∧ t.pc = haltSentinel) ∨
      (s.status = .running ∧ t.status = .faulted ∧ t.faultIp = s.pc ∧ t.pc = s.pc) := by
  obtain ⟨-, rfl⟩ | ⟨hs, tr, -, -, rfl⟩ | ⟨hs, i, -, he⟩ := engineStep_cases h
  · exact .inl rfl
  · exact .inr (.inr ⟨hs, rfl, s.beginStep_pc, s.beginStep_pc⟩)
  · have hcases := he.status_cases
    rw [s.beginStep_status, s.beginStep_pc] at hcases
    exact hcases.imp_right (Or.imp (.intro hs) (.intro hs))

theorem hostAct_status_cases {a : HostAction} {s t : State} (h : hostAct a s = .next t) :
    t.status = s.status ∨ a = .reset ∧ t.status = .running := by
  obtain ⟨ha, rfl⟩ | ⟨-, b, q, -, rfl⟩ | ⟨b, -, -, -, rfl⟩ | ⟨-, rfl⟩ | ⟨-, rfl⟩ := hostAct_cases h
  · exact .inr ⟨ha, rfl⟩
  all_goals exact .inl rfl

/-- Settles O47: the engine's changes of status are those of `engineStep_status_cases`, the host's is reset's. -/
theorem statusChangesOnlyAsTheRulesSay : Obligations.StatusChangesOnlyAsTheRulesSay := by
  intro s t hstep hchanged
  obtain ⟨rest, -, hengine⟩ | ⟨a, rest, hplan, hact⟩ := step_cases hstep
  · obtain hsame | hhalt | hfault := engineStep_status_cases hengine
    · exact absurd hsame hchanged
    · exact .inl hhalt
    · exact .inr (.inl hfault)
  · obtain hsame | ⟨rfl, hrunning⟩ := hostAct_status_cases hact
    · exact absurd hsame hchanged
    · exact .inr (.inr ⟨hrunning, rest, hplan⟩)

/-! ### The closed flags and the parameters (R7, R105) -/

/-- `t` has the parameters of `s`, and its closed flags or more. -/
structure KeepsParametersAndClosure (s t : State) : Prop where
  config : t.config = s.config
  outClosed : s.outClosed = true → t.outClosed = true
  inClosed : s.inClosed = true → t.inClosed = true

theorem engineStep_keeps {s t : State} (h : engineStep s = .next t) : KeepsParametersAndClosure s t := by
  obtain ⟨-, rfl⟩ | ⟨-, tr, -, -, rfl⟩ | ⟨-, i, -, he⟩ := engineStep_cases h
  · exact ⟨rfl, id, id⟩
  · exact ⟨s.beginStep_config, s.beginStep_outClosed.trans, s.beginStep_inClosed.trans⟩
  · obtain ⟨-, hconfig, -⟩ := he.frame.hidden
    exact ⟨hconfig.trans s.beginStep_config, (he.frame.outClosed.trans s.beginStep_outClosed).trans,
      (he.frame.inClosed.trans s.beginStep_inClosed).trans⟩

theorem hostAct_keeps {a : HostAction} {s t : State} (h : hostAct a s = .next t) : KeepsParametersAndClosure s t := by
  obtain ⟨-, rfl⟩ | ⟨-, b, q, -, rfl⟩ | ⟨b, -, -, -, rfl⟩ | ⟨-, rfl⟩ | ⟨-, rfl⟩ := hostAct_cases h
  · exact ⟨rfl, id, id⟩
  · exact ⟨rfl, id, id⟩
  · exact ⟨rfl, id, id⟩
  · exact ⟨rfl, fun _ => rfl, id⟩
  · exact ⟨rfl, id, fun _ => rfl⟩

theorem step_keeps {s t : State} (h : step s = .next t) : KeepsParametersAndClosure s t := by
  obtain ⟨rest, -, hengine⟩ | ⟨a, rest, -, hact⟩ := step_cases h
  · exact { engineStep_keeps hengine with }
  · exact { hostAct_keeps hact with }

/-- Settles O48: the flags' part of `step_keeps`. -/
theorem closedFlagsNeverClear : Obligations.ClosedFlagsNeverClear :=
  fun _ _ hstep => ⟨(step_keeps hstep).outClosed, (step_keeps hstep).inClosed⟩

/-- Settles O49: the parameters' part of `step_keeps`. -/
theorem parametersNeverChange : Obligations.ParametersNeverChange :=
  fun _ _ hstep => (step_keeps hstep).config

/-! ### That a step answers (R61, R97, R106) -/

/-- Every rule ends in `complete`, which answers a next state. -/
theorem exec_answers_next (i : Instr) (s : State) : ∃ t, exec i s = .next t := by
  cases i with
  | halt => exact ⟨_, exec_halt s⟩
  | noop => exact ⟨_, rfl⟩
  | set | push | pop | eq | gt | jmp | jt | jf | add | mult | mod | and | or | not | rmem | wmem | call | ret | out
  | inp => exact complete_answers_next _ _ _

theorem engineStep_answers_next (s : State) : ∃ t, engineStep s = .next t := by
  by_cases hs : s.status = .running
  · rw [engineStep_running hs]
    cases hf : s.beginStep.fetch with
    | error tr => exact ⟨_, runInstruction_fault hf⟩
    | ok i =>
      rw [runInstruction_exec hf]
      exact exec_answers_next i _
  · exact ⟨s, engineStep_stopped hs⟩

/-! ### The host's acts on the channels (R106) -/

section

variable {s : State} {rest : List Turn}

theorem step_takeOutput_of_empty (h : s.schedule = .host .takeOutput :: rest) (hq : s.outQ = []) :
    step s = .refused .hostTakesFromEmptyOutput := by
  rw [step_host_turn h, hostAct, State.setSchedule_outQ, hq]

theorem step_takeOutput_of_cons {b : Byte} {q : List Byte} (h : s.schedule = .host .takeOutput :: rest)
    (hq : s.outQ = b :: q) : step s = .next { s with outQ := q, schedule := rest } := by
  rw [step_host_turn h, hostAct, State.setSchedule_outQ, hq]
  rfl

theorem step_putInput_of_closed {b : Byte} (h : s.schedule = .host (.putInput b) :: rest) (hc : s.inClosed = true) :
    step s = .refused .hostPutsAfterClose := by
  rw [step_host_turn h, hostAct, State.setSchedule_inClosed, if_pos hc]

/-- On an open channel, whether there is room decides. -/
theorem step_putInput_of_open {b : Byte} (h : s.schedule = .host (.putInput b) :: rest) (hc : s.inClosed = false) :
    step s = if hasRoom s.config.inCap s.inQ then .next { s with inQ := s.inQ ++ [b], schedule := rest }
      else .refused .hostPutsPastCapacity := by
  have hopen : ¬s.inClosed = true := by simp [hc]
  rw [step_host_turn h, hostAct, State.setSchedule_inClosed, if_neg hopen]
  rfl

/-- Settles O55: one lemma for each act that asks for a check; closing asks for none. -/
theorem hostActsOnTheChannels : Obligations.HostActsOnTheChannels := by
  intro s rest
  refine ⟨fun b q => step_takeOutput_of_cons, fun b h hc hroom => ?_, step_host_turn, step_host_turn⟩
  rw [step_putInput_of_open h hc, if_pos (hasRoom_eq_true.2 hroom)]

theorem hasRoom_eq_false {cap : Option Nat} {q : List Byte} :
    hasRoom cap q = false ↔ ∃ n, cap = some n ∧ n ≤ q.length := by
  cases cap with
  | none => simp [hasRoom]
  | some n => simp [hasRoom]

/-- A host act answers a next state or is one of the three that R106 does not allow. -/
theorem step_host_answers {a : HostAction} (h : s.schedule = .host a :: rest) :
    (∃ t, step s = .next t) ∨
      (a = .takeOutput ∧ s.outQ = [] ∧ step s = .refused .hostTakesFromEmptyOutput) ∨
      (∃ b, a = .putInput b ∧ s.inClosed = true ∧ step s = .refused .hostPutsAfterClose) ∨
      ∃ b n, a = .putInput b ∧ s.inClosed = false ∧ s.config.inCap = some n ∧ n ≤ s.inQ.length ∧
        step s = .refused .hostPutsPastCapacity := by
  cases a with
  | reset | closeOutput | closeInput => exact .inl ⟨_, step_host_turn h⟩
  | takeOutput =>
    cases hq : s.outQ with
    | nil => exact .inr (.inl ⟨rfl, rfl, step_takeOutput_of_empty h hq⟩)
    | cons b q => exact .inl ⟨_, step_takeOutput_of_cons h hq⟩
  | putInput b =>
    cases hc : s.inClosed with
    | true => exact .inr (.inr (.inl ⟨b, rfl, rfl, step_putInput_of_closed h hc⟩))
    | false =>
      have hstep := step_putInput_of_open h hc
      cases hroom : hasRoom s.config.inCap s.inQ with
      | true => exact .inl ⟨_, by rwa [if_pos hroom] at hstep⟩
      | false =>
        obtain ⟨n, hn, hfull⟩ := hasRoom_eq_false.1 hroom
        rw [hroom] at hstep
        exact .inr (.inr (.inr ⟨b, n, rfl, rfl, hn, hfull, hstep⟩))

end

/-- Settles O50: the engine always answers, and the host's acts are those of `step_host_answers`. -/
theorem stepAnswersNextUnlessTheHostBreaksItsContract :
    Obligations.StepAnswersNextUnlessTheHostBreaksItsContract := by
  intro s
  match hplan : s.schedule with
  | [] =>
    rw [step_engine_last hplan]
    exact .inl (engineStep_answers_next s)
  | .engine :: rest =>
    rw [step_engine_turn hplan]
    exact .inl (engineStep_answers_next _)
  | .host a :: rest =>
    obtain hnext | ⟨rfl, hempty, hstep⟩ | ⟨b, rfl, hclosed, hstep⟩ | ⟨b, n, rfl, hopen, hcap, hfull, hstep⟩ :=
      step_host_answers hplan
    · exact .inl hnext
    · exact .inr ⟨rest, .inl ⟨rfl, hempty, hstep⟩⟩
    · exact .inr ⟨rest, .inr (.inl ⟨b, rfl, hclosed, hstep⟩)⟩
    · exact .inr ⟨rest, .inr (.inr ⟨b, n, rfl, hopen, hcap, hfull, hstep⟩)⟩

end Sys2Proof.Machine
end

/-! # mult at any width (43_arithmetic_logic.md, R84) -/

section
namespace Sys2Proof.Machine

open Sys2Proof.Spec

/-- Settles O27: 32768 divides `2 ^ k`, so a reduction modulo `2 ^ k` before the one modulo 32768 changes nothing. -/
theorem multIsTheSameAtEveryWidth : Obligations.MultIsTheSameAtEveryWidth := by
  intro k hk
  have hdvd : 32768 ∣ 2 ^ k := pow_dvd_pow 2 hk
  have hreduce (vb vc : Nat) : vb * vc % 2 ^ k % 32768 = vb * vc % 32768 := Nat.mod_mod_of_dvd _ hdvd
  simp only [hreduce]
  exact multWritesProductModulo32768.2

end Sys2Proof.Machine
end

/-! # Memory as data, and the round trip of a word (20_memory.md section 7; 44_memory_access.md) -/

section
namespace Sys2Proof.Machine

open Sys2Proof.Spec

/-! ### The canonical form (R29) -/

/-- A canonical memory with a cell at `k` does not read there like one whose cells all lie above `k`. -/
theorem Memory.read_cell_ne {k lo : Nat} {v : Byte} {m m' : Memory} (hv : v ≠ 0) (hm' : m'.wfFrom lo = true)
    (hk : k < lo) : Memory.read ((k, v) :: m) k ≠ m'.read k := by
  rw [Memory.read, if_pos rfl, Memory.read_of_wfFrom_lt hm' hk]
  exact hv

/-- Without its first cell a canonical memory reads as before, but for 0 in that cell's place. -/
theorem Memory.read_tail {k : Nat} {v : Byte} {m : Memory} (hm : m.wfFrom (k + 1) = true) (j : Nat) :
    m.read j = if j = k then 0 else Memory.read ((k, v) :: m) j := by
  split
  · exact Memory.read_of_wfFrom_lt hm (by omega)
  · rw [Memory.read, if_neg (by omega)]

/-- Two canonical memories that read alike have the same first cell, and so on for the rest. -/
theorem Memory.eq_of_read_eq {m m' : Memory} {lo lo' : Nat} (hm : m.wfFrom lo = true) (hm' : m'.wfFrom lo' = true)
    (hread : ∀ j, m.read j = m'.read j) : m = m' := by
  induction m generalizing m' lo lo' with
  | nil =>
    cases m' with
    | nil => rfl
    | cons c m' =>
      obtain ⟨-, -, hv, -⟩ := Memory.wfFrom_cons_cell.1 hm'
      exact absurd (hread c.1).symm (Memory.read_cell_ne (lo := c.1 + 1) hv rfl (Nat.lt_succ_self _))
  | cons c m ih =>
    obtain ⟨k, v⟩ := c
    obtain ⟨-, hin, hv, hrest⟩ := Memory.wfFrom_cons_cell.1 hm
    cases m' with
    | nil => exact absurd (hread k) (Memory.read_cell_ne (lo := k + 1) hv rfl (Nat.lt_succ_self k))
    | cons c' m' =>
      obtain ⟨k', v'⟩ := c'
      obtain ⟨-, hin', hv', hrest'⟩ := Memory.wfFrom_cons_cell.1 hm'
      obtain hlt | rfl | hgt := Nat.lt_trichotomy k k'
      · have hfrom := Memory.wfFrom_cons_cell.2 ⟨Nat.le_refl k', hin', hv', hrest'⟩
        exact absurd (hread k) (Memory.read_cell_ne hv hfrom hlt)
      · have hcell : v = v' := by simpa [Memory.read] using hread k
        subst hcell
        have htail (j : Nat) : Memory.read m j = Memory.read m' j := by
          rw [Memory.read_tail (v := v) hrest j, hread j, ← Memory.read_tail hrest' j]
        rw [ih hrest hrest' htail]
      · have hfrom := Memory.wfFrom_cons_cell.2 ⟨Nat.le_refl k, hin, hv, hrest⟩
        exact absurd (hread k').symm (Memory.read_cell_ne hv' hfrom hgt)

/-- Settles O35: `Memory.eq_of_read_eq` from offset 0. -/
theorem memoriesThatReadAlikeAreEqual : Obligations.MemoriesThatReadAlikeAreEqual :=
  fun _ _ hm hm' hread => Memory.eq_of_read_eq hm hm' hread

/-! ### The round trip (R86, R87) -/

/-- A Word stored as a slot is in range when it is loaded, and is the same Word. -/
theorem wordOfSlot_setWidth (v : Word) : wordOfSlot (v.setWidth 16) = .ok v := by
  have hfits : (v.setWidth 16).toNat ≤ 32767 := by
    have := v.isLt
    rw [BitVec.toNat_setWidth_of_le (by decide)]
    omega
  rw [wordOfSlot_eq_ok.2 ⟨hfits, rfl⟩]
  simp

theorem reads_of_regs_eq {s t : State} {o : Operand} {v : Word} (h : Reads s o v) (hregs : t.regs = s.regs) :
    Reads t o v := by
  obtain hlit | ⟨r, hreg, hv⟩ := h
  · exact .inl hlit
  · exact .inr ⟨r, hreg, (State.getReg_congr hregs r).trans hv⟩

theorem exec_rmem_of_word {s : State} {b : Operand} {w v : Word} (d : RegIdx) (hb : Reads s b w)
    (hv : s.ram.read2 (2 * w.toNat) = v.setWidth 16) : exec (.rmem (.reg d) b) s = .next (written s d v 2) := by
  rw [exec_rmem_of_address d (resolveAddress_of_reads hb), byteOf_toNat, hv, wordOfSlot_setWidth, except_ok_bind,
    complete_next, setReg_setPc_eq_written]

theorem getReg_written_same (s : State) (d : RegIdx) (v : Word) (n : Nat) : (written s d v n).getReg d = v := by
  rw [← setReg_setPc_eq_written, State.getReg_setPc, State.getReg_setReg_same]

theorem getReg_written_ne (s : State) {d r : RegIdx} (v : Word) (n : Nat) (h : r ≠ d) :
    (written s d v n).getReg r = s.getReg r := by
  rw [← setReg_setPc_eq_written, State.getReg_setPc, State.getReg_setReg_ne s v h]

/-- Settles O34: the store leaves the registers, so the load's address is the store's, and `Memory.read2_write2` gives
the word back. -/
theorem rmemReadsWhatWmemWrote : Obligations.RmemReadsWhatWmemWrote := by
  intro s a b d w v hwf ha hb
  have hin : 2 * w.toNat < 65536 := by have := w.isLt; omega
  have hstored := Memory.read2_write2 (v.setWidth 16) hwf hin
  refine ⟨_, _, exec_wmem_of_reads ha hb, exec_rmem_of_word d (reads_of_regs_eq ha rfl) hstored, ?_, fun r hr => ?_⟩
  · exact getReg_written_same _ d v 2
  · exact getReg_written_ne _ v 2 hr

end Sys2Proof.Machine
end

/-! # Assembled statements (30_encoding.md, R64) -/

section
namespace Sys2Proof.Machine

open Sys2Proof.Spec

/-- What an operand written without a label stands for. -/
def plainOperand : AsmOperand → Option Operand
  | .reg r => some (.reg r)
  | .lit w => some (.lit w)
  | .label _ => none

theorem plainOperand_wf {o : AsmOperand} {x : Operand} (h : plainOperand o = some x) : x.wf = true := by
  cases o with
  | reg | lit => cases h; rfl
  | label => cases h

theorem assembleOperand_of_plain {o : AsmOperand} {x : Operand} (program : List AsmLine)
    (h : plainOperand o = some x) : assembleOperand program o = some x := by
  cases o with
  | reg | lit => exact h
  | label => cases h

theorem assembleOperands_of_plain {operands : List AsmOperand} {resolved : List Operand} (program : List AsmLine)
    (h : operands.map plainOperand = resolved.map some) :
    assembleOperands program operands = some resolved ∧ ∀ x ∈ resolved, x.wf = true := by
  induction operands generalizing resolved with
  | nil =>
    cases resolved with
    | nil => exact ⟨rfl, nofun⟩
    | cons => cases h
  | cons o operands ih =>
    cases resolved with
    | nil => cases h
    | cons x resolved =>
      obtain ⟨hx, hrest⟩ := List.cons.inj h
      obtain ⟨hassemble, hwf⟩ := ih hrest
      refine ⟨?_, List.forall_mem_cons.2 ⟨plainOperand_wf hx, hwf⟩⟩
      rw [assembleOperands, assembleOperand_of_plain program hx, hassemble]
      rfl

/-- A mnemonic's instruction has the operands it is given: one case for each row of R58. -/
theorem operandList_of_instrOfMnemonic {m : String} {operands : List Operand} {i : Instr}
    (h : instrOfMnemonic m operands = some i) : i.operandList = operands := by
  unfold instrOfMnemonic at h
  split at h <;> cases h <;> rfl

/-- Settles O9: operands without labels assemble to themselves, wherever the statement stands. -/
theorem assembledStatementIsEncoding : Obligations.AssembledStatementIsEncoding := by
  refine ⟨fun program m operands resolved i hplain hname => ?_, fun _ _ => rfl⟩
  obtain ⟨hassemble, hwf⟩ := assembleOperands_of_plain program (operands := operands) hplain
  have hoperands := operandList_of_instrOfMnemonic hname
  refine ⟨hoperands, i.wf_iff.2 (hoperands ▸ hwf), ?_⟩
  rw [assembleStatement, hassemble, Option.bind_some, hname]
  rfl

end Sys2Proof.Machine
end

/-! # out, in and noop (45_system_io.md) -/

section
namespace Sys2Proof.Machine

open Sys2Proof.Spec

/-- Settles O37: `noop` is the end that goes on, with nothing written. -/
theorem noopAdvancesOnly : Obligations.NoopAdvancesOnly := by
  refine ⟨encodedAs_opcode_operands .noop, fun s => ?_⟩
  rw [exec, execNoop, complete_next, nextPc_eq_next]
  rfl

/-! ### out (R89, R92) -/

theorem out_raisesOperandFaults (a : Operand) : RaisesOperandFaults (.out a) [(.value, a)] :=
  raisesOperandFaults_of_rule (fun _ => rfl) fun s => (resolves_value s a).bind fun _ => raisesFirstFault_nil _

theorem exec_out_of_error {s : State} {a : Operand} {tr : Trap} (ha : resolveValue s a = .error tr) :
    exec (.out a) s = .next (s.raise tr) := by
  rw [exec, execOut, ha, except_error_bind, complete_error]

section

variable {s : State} {a : Operand} {v : Word} (ha : resolveValue s a = .ok v)
include ha

theorem exec_out_of_closed (hclosed : s.outClosed = true) :
    exec (.out a) s = .next (faulted s .ioChannelClosed (v.toNat % 256)) := by
  have hbyte : s.outByte (v.setWidth 8) = .error ⟨.ioChannelClosed, (v.setWidth 8).setWidth 17⟩ :=
    outByte_eq_error.2 ⟨hclosed, rfl⟩
  have hvalue : ((v.setWidth 8).setWidth 17).toNat = v.toNat % 256 := by
    rw [BitVec.toNat_setWidth_of_le (by decide), BitVec.toNat_setWidth]
  rw [exec, execOut, ha, except_ok_bind, hbyte, except_error_bind, complete_error, raise_eq_faulted, hvalue]

theorem exec_out_of_room (hopen : s.outClosed = false) (hroom : hasRoom s.config.outCap s.outQ = true) :
    exec (.out a) s = .next ((s.setOutQ (s.outQ ++ [v.setWidth 8])).setPc (s.nextPc 1)) := by
  have hbyte : s.outByte (v.setWidth 8) = .ok (some (s.setOutQ (s.outQ ++ [v.setWidth 8]))) :=
    outByte_eq_ok.2 ⟨hopen, by rw [if_pos hroom]⟩
  simp only [exec, execOut, ha, hbyte, except_ok_bind, complete_next]

theorem exec_out_of_full (hopen : s.outClosed = false) (hfull : hasRoom s.config.outCap s.outQ = false) :
    exec (.out a) s = .next (s.setHeld true) := by
  have hbyte : s.outByte (v.setWidth 8) = .ok none := outByte_eq_ok.2 ⟨hopen, by simp [hfull]⟩
  simp only [exec, execOut, ha, hbyte, except_ok_bind, complete_wait]

end

theorem setWidth_eight (v : Word) : v.setWidth 8 = BitVec.ofNat 8 (v.toNat % 256) :=
  BitVec.eq_of_toNat_eq (by rw [BitVec.toNat_setWidth, BitVec.toNat_ofNat, Nat.mod_mod])

/-- Settles O38: once the operand has resolved, the three cases are those of `State.outByte`. -/
theorem outOffersLowByteToChannel : Obligations.OutOffersLowByteToChannel := by
  intro a
  refine ⟨encodedAs_opcode_operands (.out a), out_raisesOperandFaults a, fun s v ha => ?_⟩
  have hv := resolveValue_of_reads ha
  refine ⟨exec_out_of_closed hv, fun hopen hroom => ?_, fun n hopen hcap hfull => ?_⟩
  · rw [exec_out_of_room hv hopen (hasRoom_eq_true.2 hroom), nextPc_eq_next, setWidth_eight]
    rfl
  · exact exec_out_of_full hv hopen (hasRoom_eq_false.2 ⟨n, hcap, hfull⟩)

/-! ### in (R90, R93) -/

theorem in_raisesOperandFaults (a : Operand) : RaisesOperandFaults (.inp a) [(.register, a)] :=
  raisesOperandFaults_of_rule (fun _ => rfl) fun _ => (resolves_register a).bind fun _ => raisesFirstFault_nil _

section

variable {s : State} (d : RegIdx)

theorem exec_in_of_cons {b : Byte} {q : List Byte} (hq : s.inQ = b :: q) :
    exec (.inp (.reg d)) s = .next (((s.setInQ q).setReg d (b.setWidth 15)).setPc (s.nextPc 1)) := by
  have hbyte : s.inByte = .ok (some (b, s.setInQ q)) := inByte_eq_some.2 ⟨q, hq, rfl⟩
  simp only [exec, execIn, resolveRegister_reg, hbyte, except_ok_bind, complete_next]

theorem exec_in_of_closed (hq : s.inQ = []) (hclosed : s.inClosed = true) :
    exec (.inp (.reg d)) s = .next (faulted s .ioChannelClosed 0) := by
  have hbyte : s.inByte = .error ⟨.ioChannelClosed, 0⟩ := inByte_eq_error.2 ⟨hq, hclosed, rfl⟩
  rw [exec, execIn, resolveRegister_reg, except_ok_bind, hbyte, except_error_bind, complete_error, raise_eq_faulted]
  rfl

theorem exec_in_of_open (hq : s.inQ = []) (hopen : s.inClosed = false) :
    exec (.inp (.reg d)) s = .next (s.setHeld true) := by
  have hbyte : s.inByte = .ok none := inByte_eq_none.2 ⟨hq, hopen⟩
  simp only [exec, execIn, resolveRegister_reg, hbyte, except_ok_bind, complete_wait]

end

/-- Settles O39: once the destination has resolved, the three cases are those of `State.inByte`. -/
theorem inTakesHeadByteOfChannel : Obligations.InTakesHeadByteOfChannel := by
  intro a
  refine ⟨encodedAs_opcode_operands (.inp a), in_raisesOperandFaults a, ?_⟩
  rintro s d rfl
  refine ⟨fun b q hq => ?_, exec_in_of_closed d, exec_in_of_open d⟩
  rw [exec_in_of_cons d hq, nextPc_eq_next, BitVec.ofNat_toNat]
  rfl

end Sys2Proof.Machine
end

/-! # Construction and the status outputs (70_reset_and_hazards.md; 60_exceptions.md section 8) -/

section
namespace Sys2Proof.Machine

/-- Settles O54: construction accepts the allowed parameters only, and the state it gives has every field that reset
writes at the value reset writes. -/
theorem constructionGivesTheResetState : Obligations.ConstructionGivesTheResetState := by
  refine ⟨fun c hlong => ?_, fun c hc => ?_, rfl⟩
  · have hnotAllowed : ¬c.wf = true := fun hc => absurd (image_length_le_of_wf hc) (Nat.not_le.mpr hlong)
    exact if_neg hnotAllowed
  · exact ⟨_, if_pos hc, rfl, rfl, rfl, rfl, rfl, rfl⟩

/-- Settles O56: one code for each status and each kind. -/
theorem statusOutputsCarryTheCodes : Obligations.StatusOutputsCarryTheCodes := by
  intro s
  refine ⟨?_, ?_, rfl, rfl⟩
  · rw [State.ports]
    cases s.status <;> rfl
  · rw [State.ports]
    cases s.faultKind <;> rfl

end Sys2Proof.Machine
end

/-! # The LIFO law (40_data_movement.md; 95_test_vectors.md L1.4) -/

section
namespace Sys2Proof.Machine

open Sys2Proof.Spec

theorem execAll_cons {i : Instr} {is : List Instr} {s t : State} (h : exec i s = .next t) :
    execAll (i :: is) s = execAll is t := by
  rw [execAll, h]

theorem execAll_append {is js : List Instr} {s t : State} (h : execAll is s = some t) :
    execAll (is ++ js) s = execAll js t := by
  induction is generalizing s with
  | nil => cases h; rfl
  | cons i is ih =>
    obtain ⟨u, hu⟩ := exec_answers_next i s
    rw [execAll_cons hu] at h
    rw [List.cons_append, execAll_cons hu, ih h]

/-- Pushes that fit leave the words on the stack, the last one on top. -/
theorem execAll_pushes {vs : List Word} {s : State} (hroom : s.stack.length + vs.length ≤ s.config.stackDepthMax) :
    ∃ t, execAll (vs.map fun v => .push (.lit v)) s = some t ∧
      t.stack = (vs.reverse.map fun v => v.setWidth 16) ++ s.stack ∧ t.regs = s.regs ∧ t.ram = s.ram := by
  induction vs generalizing s with
  | nil => exact ⟨s, rfl, rfl, rfl, rfl⟩
  | cons v vs ih =>
    rw [List.length_cons] at hroom
    have hnotFull : s.sp ≠ s.config.stackDepthMax := by
      have : s.sp = s.stack.length := rfl
      omega
    have hpush := exec_push_of_room (a := .lit v) rfl hnotFull
    obtain ⟨t, hrun, hstack, hregs, hram⟩ :=
      ih (s := { s with stack := v.setWidth 16 :: s.stack, pc := next s 1 })
        (show s.stack.length + 1 + vs.length ≤ s.config.stackDepthMax by omega)
    refine ⟨t, ?_, ?_, hregs, hram⟩
    · rw [List.map_cons, execAll_cons hpush, hrun]
    · rw [hstack, List.reverse_cons, List.map_append, List.append_assoc]
      rfl

/-- Pops of words write them to the registers in order and leave what lay below. -/
theorem execAll_pops {ds : List RegIdx} {ws : List Word} {below : List Slot} {s : State} (hlen : ds.length = ws.length)
    (hs : s.stack = (ws.map fun v => v.setWidth 16) ++ below) :
    ∃ t, execAll (ds.map fun d => .pop (.reg d)) s = some t ∧ t.stack = below ∧
      t.regs = (ds.zip ws).foldl (fun regs dv => regs.set dv.1 dv.2) s.regs ∧ t.ram = s.ram := by
  induction ds generalizing ws s with
  | nil =>
    cases List.eq_nil_of_length_eq_zero hlen.symm
    exact ⟨s, rfl, hs, rfl, rfl⟩
  | cons d ds ih =>
    cases ws with
    | nil => cases hlen
    | cons w ws =>
      have hpop := exec_pop_of_cons d hs
      rw [wordOfSlot_setWidth, except_ok_bind, complete_next] at hpop
      obtain ⟨t, hrun, hrest⟩ := ih
        (s := ((s.setStack ((ws.map fun v => v.setWidth 16) ++ below)).setReg d w).setPc (s.nextPc 1))
        (Nat.succ.inj hlen) rfl
      exact ⟨t, (execAll_cons hpop).trans hrun, hrest⟩

/-- Settles O59: the pops find the pushed words in reverse order above the old stack. -/
theorem popsReturnPushedValuesInReverse : Obligations.PopsReturnPushedValuesInReverse := by
  intro vs ds s hlen hroom
  obtain ⟨t, hpushes, hstack, hregs, hram⟩ := execAll_pushes hroom
  obtain ⟨u, hpops, hbelow, hwritten, hram'⟩ := execAll_pops (by rw [hlen, List.length_reverse]) hstack
  exact ⟨u, (execAll_append hpushes).trans hpops, hbelow, hregs ▸ hwritten, hram'.trans hram⟩

end Sys2Proof.Machine
end

/-! # The handshakes (60_exceptions.md section 8, R108) -/

section
namespace Sys2Proof.Machine

open Sys2Proof.Spec

/-- The fetch reads the pc and RAM alone, and the start of a step changes neither. -/
theorem fetch_stepStart (s : State) (rest : List Turn) : (stepStart s rest).fetch = s.fetch := rfl

/-- The engine's turn keeps both queues, or is the fetched instruction's. -/
theorem step_queues_cases {s t : State} {rest : List Turn} (hturn : EngineTurn s rest) (h : step s = .next t) :
    (t.outQ = s.outQ ∧ t.inQ = s.inQ) ∨
      (s.status = .running ∧ ∃ i, s.fetch = .ok i ∧ exec i (stepStart s rest) = .next t) := by
  by_cases hs : s.status = .running
  · rw [step_of_running hturn hs] at h
    cases hf : (stepStart s rest).fetch with
    | error tr =>
      rw [runInstruction_fault hf] at h
      cases h
      exact .inl ⟨rfl, rfl⟩
    | ok i => exact .inr ⟨hs, i, hf, (runInstruction_exec hf).symm.trans h⟩
  · cases (stoppedEngineStepsAreNoOps s rest hturn hs).symm.trans h
    exact .inl ⟨rfl, rfl⟩

theorem step_eq_exec {s : State} {rest : List Turn} {i : Instr} (hturn : EngineTurn s rest)
    (hs : s.status = .running) (hf : s.fetch = .ok i) : step s = exec i (stepStart s rest) := by
  rw [step_of_running hturn hs]
  exact runInstruction_exec hf

/-! ### The output channel (R89) -/

/-- An `out` that gives a byte has a readable operand and an open channel with room. -/
theorem exec_out_of_outQ_ne {s t : State} {a : Operand} (h : exec (.out a) s = .next t) (hne : t.outQ ≠ s.outQ) :
    s.outClosed = false ∧ hasRoom s.config.outCap s.outQ = true ∧ ∃ v, resolveValue s a = .ok v := by
  cases hv : resolveValue s a with
  | error tr =>
    cases (exec_out_of_error hv).symm.trans h
    exact absurd rfl hne
  | ok v =>
    cases hclosed : s.outClosed with
    | true =>
      cases (exec_out_of_closed hv hclosed).symm.trans h
      exact absurd rfl hne
    | false =>
      cases hroom : hasRoom s.config.outCap s.outQ with
      | true => exact ⟨rfl, rfl, v, rfl⟩
      | false =>
        cases (exec_out_of_full hv hclosed hroom).symm.trans h
        exact absurd rfl hne

theorem outQ_of_accepted {s t : State} {rest : List Turn} {b : Byte} (hturn : EngineTurn s rest)
    (h : step s = .next t) (hoffer : s.outOffer = some b) (hroom : hasRoom s.config.outCap s.outQ = true) :
    t.outQ = s.outQ ++ [b] := by
  obtain ⟨hopen, hs, a, v, hf, hv, rfl⟩ := outOffer_eq_some.1 hoffer
  have hv : resolveValue (stepStart s rest) a = .ok v := (resolveValue_congr rfl a).trans hv
  rw [step_eq_exec hturn hs hf, exec_out_of_room hv hopen hroom] at h
  cases h
  rfl

theorem outQ_of_not_accepted {s t : State} {rest : List Turn} (hturn : EngineTurn s rest) (h : step s = .next t)
    (hnot : s.outOffer = none ∨ hasRoom s.config.outCap s.outQ = false) : t.outQ = s.outQ := by
  obtain ⟨hout, -⟩ | ⟨hs, i, hf, hexec⟩ := step_queues_cases hturn h
  · exact hout
  · by_contra hne
    obtain ⟨a, rfl⟩ := (exec_frame hexec).outQ_writer hne
    obtain ⟨hopen, hroom, v, hv⟩ := exec_out_of_outQ_ne hexec hne
    have hoffer := outOffer_eq_some.2 ⟨hopen, hs, a, v, hf, (resolveValue_congr rfl a).trans hv, rfl⟩
    obtain hnone | hfull := hnot
    · cases hnone.symm.trans hoffer
    · cases hfull.symm.trans hroom

/-! ### The input channel (R90) -/

/-- An `in` that takes a byte has a register destination and a byte to take. -/
theorem exec_in_of_inQ_ne {s t : State} {a : Operand} (h : exec (.inp a) s = .next t) (hne : t.inQ ≠ s.inQ) :
    s.inQ ≠ [] ∧ ∃ d, a = .reg d := by
  obtain ⟨s', hw, hagree⟩ := (exec_ends h).exists_writes
  rw [hagree.inQ] at hne
  cases hw with
  | nothing | register => exact absurd rfl hne
  | input d b q hq => exact ⟨by simp [hq], d, rfl⟩

theorem inQ_of_taken {s t : State} {rest : List Turn} {b : Byte} (hturn : EngineTurn s rest)
    (h : step s = .next t) (hoffer : s.inQ.head? = some b) (hready : s.inReady = true) : s.inQ = b :: t.inQ := by
  obtain ⟨hs, d, hf⟩ := inReady_eq_true.1 hready
  obtain ⟨q, hq⟩ := List.head?_eq_some_iff.1 hoffer
  rw [step_eq_exec hturn hs hf, exec_in_of_cons (s := stepStart s rest) d hq] at h
  cases h
  exact hq

theorem inQ_of_not_taken {s t : State} {rest : List Turn} (hturn : EngineTurn s rest) (h : step s = .next t)
    (hnot : s.inQ.head? = none ∨ s.inReady = false) : t.inQ = s.inQ := by
  obtain ⟨-, hin⟩ | ⟨hs, i, hf, hexec⟩ := step_queues_cases hturn h
  · exact hin
  · by_contra hne
    obtain ⟨a, rfl⟩ := (exec_frame hexec).inQ_writer hne
    obtain ⟨hsome, d, rfl⟩ := exec_in_of_inQ_ne hexec hne
    have hready := inReady_eq_true.2 ⟨hs, d, hf⟩
    obtain hnone | hnotReady := hnot
    · exact hsome (List.head?_eq_none_iff.1 hnone)
    · cases hnotReady.symm.trans hready

/-- Settles O60: one lemma for each channel and each answer of its handshake; a closed channel is offered nothing by
`State.outOffer`'s first check. -/
theorem handshakesMoveBytes : Obligations.HandshakesMoveBytes := by
  intro s rest hturn
  have hanswers : ∃ t, step s = .next t := by
    rw [step_of_engineTurn hturn]
    exact engineStep_answers_next _
  obtain ⟨t, h⟩ := hanswers
  exact ⟨t, h, fun _ => outQ_of_accepted hturn h, outQ_of_not_accepted hturn h,
    fun hclosed => if_pos hclosed, fun _ => inQ_of_taken hturn h, inQ_of_not_taken hturn h⟩

end Sys2Proof.Machine
end

/-! # What no instruction reads (10_state.md section 7; 20_memory.md section 4; 70_reset_and_hazards.md section 1) -/

section
namespace Sys2Proof.Machine

open Sys2Proof.Spec

/-- `s` with the parts that no instruction reads put otherwise: bytes output earlier, the stack buffer's length, and the
host's plan. -/
def State.withUnread (s : State) (earlier : List Byte) (len : Nat) (plan : List Turn) : State :=
  { s with bufLen := len, outQ := earlier ++ s.outQ, schedule := plan }

/-- Bytes output earlier are not seen: there are none, or the output channel is unbounded. -/
def EarlierUnseen (earlier : List Byte) (s : State) : Prop := earlier = [] ∨ s.config.outCap = none

theorem EarlierUnseen.hasRoom_eq {earlier : List Byte} {s : State} (h : EarlierUnseen earlier s) (q : List Byte) :
    hasRoom s.config.outCap (earlier ++ q) = hasRoom s.config.outCap q := by
  obtain rfl | hcap := h
  · rfl
  · rw [hcap]
    rfl

/-- A rule's effect with the unread parts put otherwise. -/
def Effect.withUnread (earlier : List Byte) (len : Nat) (plan : List Turn) : Effect → Effect :=
  Except.map fun r => (r.1.withUnread earlier len plan, r.2)

section

variable (earlier : List Byte) (len : Nat) (plan : List Turn) {s t : State}

/-! ### The shared operations -/

theorem Effect.withUnread_bind {α : Type} {x : Except Trap α} {f f' : α → Effect}
    (h : ∀ y, f' y = Effect.withUnread earlier len plan (f y)) :
    x >>= f' = Effect.withUnread earlier len plan (x >>= f) := by
  cases x with
  | error => rfl
  | ok y => exact h y

theorem writeUnary_withUnread (a b : Operand) (f : Word → Word) :
    writeUnary (s.withUnread earlier len plan) a b f = Effect.withUnread earlier len plan (writeUnary s a b f) :=
  Effect.withUnread_bind _ _ _ fun _ => Effect.withUnread_bind _ _ _ fun _ => rfl

theorem writeBinary_withUnread (a b c : Operand) (f : Word → Word → Except Trap Word) :
    writeBinary (s.withUnread earlier len plan) a b c f =
      Effect.withUnread earlier len plan (writeBinary s a b c f) :=
  Effect.withUnread_bind _ _ _ fun _ => Effect.withUnread_bind _ _ _ fun _ =>
    Effect.withUnread_bind _ _ _ fun _ => Effect.withUnread_bind _ _ _ fun _ => rfl

theorem conditionalJump_withUnread (a b : Operand) (taken : Word → Bool) :
    conditionalJump (s.withUnread earlier len plan) a b taken =
      Effect.withUnread earlier len plan (conditionalJump s a b taken) :=
  Effect.withUnread_bind _ _ _ fun _ => Effect.withUnread_bind _ _ _ fun _ => rfl

/-- A push is the same push, whatever the buffer length (R35, R40). -/
theorem pushEntry_withUnread (v : Slot) (e : Exit) :
    ((s.withUnread earlier len plan).pushEntry v >>= fun s' => .ok (s', e)) =
      Effect.withUnread earlier len plan (s.pushEntry v >>= fun s' => .ok (s', e)) := by
  by_cases hfull : s.sp = s.config.stackDepthMax
  · rw [pushEntry_eq_error.2 ⟨hfull, rfl⟩, (pushEntry_eq_error (s := s.withUnread earlier len plan)).2 ⟨hfull, rfl⟩]
    rfl
  · rw [pushEntry_eq_ok.2 ⟨hfull, rfl⟩, (pushEntry_eq_ok (s := s.withUnread earlier len plan)).2 ⟨hfull, rfl⟩]
    rfl

/-- An instruction's end moves along with its rule's effect. -/
theorem complete_withUnread {n : Nat} {e e' : Effect} (he : e' = Effect.withUnread earlier len plan e)
    (h : complete n s e = .next t) :
    complete n (s.withUnread earlier len plan) e' = .next (t.withUnread earlier len plan) := by
  subst he
  obtain ⟨tr, rfl, rfl⟩ | ⟨s', rfl, rfl⟩ | ⟨s', p, rfl, rfl⟩ | ⟨s', rfl, rfl⟩ | ⟨s', rfl, rfl⟩ := complete_cases h
  all_goals rfl

/-! ### Each instruction -/

theorem exec_pop_withUnread {a : Operand} (h : exec (.pop a) s = .next t) :
    exec (.pop a) (s.withUnread earlier len plan) = .next (t.withUnread earlier len plan) := by
  cases a with
  | lit | invalid => cases h; rfl
  | reg d =>
    cases hs : s.stack with
    | nil =>
      cases (exec_pop_of_empty d hs).symm.trans h
      exact exec_pop_of_empty (s := s.withUnread earlier len plan) d hs
    | cons v rest =>
      rw [exec_pop_of_cons d hs] at h
      rw [exec_pop_of_cons (s := s.withUnread earlier len plan) d hs]
      exact complete_withUnread _ _ _ (Effect.withUnread_bind _ _ _ fun _ => rfl) h

theorem exec_ret_withUnread (h : exec .ret s = .next t) :
    exec .ret (s.withUnread earlier len plan) = .next (t.withUnread earlier len plan) := by
  cases hs : s.stack with
  | nil =>
    cases (exec_ret_of_empty hs).symm.trans h
    exact exec_ret_of_empty (s := s.withUnread earlier len plan) hs
  | cons w rest =>
    cases (exec_ret_of_cons hs).symm.trans h
    exact exec_ret_of_cons (s := s.withUnread earlier len plan) hs

/-- An `out` appends its byte after the earlier output too, and there is room for it in both states or in neither. -/
theorem exec_out_withUnread {a : Operand} (hearlier : EarlierUnseen earlier s) (h : exec (.out a) s = .next t) :
    exec (.out a) (s.withUnread earlier len plan) = .next (t.withUnread earlier len plan) := by
  have hcongr : resolveValue (s.withUnread earlier len plan) a = resolveValue s a := resolveValue_congr rfl a
  cases hv : resolveValue s a with
  | error tr =>
    cases (exec_out_of_error hv).symm.trans h
    exact exec_out_of_error (hcongr.trans hv)
  | ok v =>
    cases hclosed : s.outClosed with
    | true =>
      cases (exec_out_of_closed hv hclosed).symm.trans h
      exact exec_out_of_closed (hcongr.trans hv) hclosed
    | false =>
      have hsame := hearlier.hasRoom_eq s.outQ
      cases hroom : hasRoom s.config.outCap s.outQ with
      | true =>
        cases (exec_out_of_room hv hclosed hroom).symm.trans h
        rw [exec_out_of_room (hcongr.trans hv) hclosed (hsame.trans hroom), State.withUnread, List.append_assoc]
        rfl
      | false =>
        cases (exec_out_of_full hv hclosed hroom).symm.trans h
        exact exec_out_of_full (hcongr.trans hv) hclosed (hsame.trans hroom)

theorem exec_in_withUnread {a : Operand} (h : exec (.inp a) s = .next t) :
    exec (.inp a) (s.withUnread earlier len plan) = .next (t.withUnread earlier len plan) := by
  cases a with
  | lit | invalid => cases h; rfl
  | reg d =>
    cases hq : s.inQ with
    | cons b q =>
      cases (exec_in_of_cons d hq).symm.trans h
      exact exec_in_of_cons (s := s.withUnread earlier len plan) d hq
    | nil =>
      cases hclosed : s.inClosed with
      | true =>
        cases (exec_in_of_closed d hq hclosed).symm.trans h
        exact exec_in_of_closed (s := s.withUnread earlier len plan) d hq hclosed
      | false =>
        cases (exec_in_of_open d hq hclosed).symm.trans h
        exact exec_in_of_open (s := s.withUnread earlier len plan) d hq hclosed

/-- An instruction does the same to a state with the unread parts put otherwise. -/
theorem exec_withUnread {i : Instr} (hearlier : EarlierUnseen earlier s) (h : exec i s = .next t) :
    exec i (s.withUnread earlier len plan) = .next (t.withUnread earlier len plan) := by
  cases i with
  | halt | noop => cases h; rfl
  | set a b | not a b => exact complete_withUnread _ _ _ (writeUnary_withUnread ..) h
  | eq a b c | gt a b c | add a b c | mult a b c | mod a b c | and a b c | or a b c =>
    exact complete_withUnread _ _ _ (writeBinary_withUnread ..) h
  | jt a b | jf a b => exact complete_withUnread _ _ _ (conditionalJump_withUnread ..) h
  | jmp a => exact complete_withUnread _ _ _ (Effect.withUnread_bind _ _ _ fun _ => rfl) h
  | push a | call a =>
    exact complete_withUnread _ _ _ (Effect.withUnread_bind _ _ _ fun _ => pushEntry_withUnread ..) h
  | rmem a b =>
    exact complete_withUnread _ _ _ (Effect.withUnread_bind _ _ _ fun _ => Effect.withUnread_bind _ _ _ fun _ =>
      Effect.withUnread_bind _ _ _ fun _ => rfl) h
  | wmem a b =>
    exact complete_withUnread _ _ _ (Effect.withUnread_bind _ _ _ fun _ => Effect.withUnread_bind _ _ _ fun _ => rfl) h
  | pop a => exact exec_pop_withUnread _ _ _ h
  | ret => exact exec_ret_withUnread _ _ _ h
  | out a => exact exec_out_withUnread _ _ _ hearlier h
  | inp a => exact exec_in_withUnread _ _ _ h

/-! ### The engine's step and its runs -/

/-- The resize check alone reads the buffer length, and writes nothing else (R38). -/
theorem beginStep_withUnread :
    (s.withUnread earlier len plan).beginStep =
      s.beginStep.withUnread earlier (if s.held then len else resizedLen s.sp len) plan := by
  by_cases hheld : s.held = true
  · rw [beginStep_of_held hheld, beginStep_of_held (s := s.withUnread earlier len plan) hheld, if_pos hheld]
    rfl
  · rw [beginStep_of_not_held hheld, beginStep_of_not_held (s := s.withUnread earlier len plan) hheld, if_neg hheld]
    rfl

end

/-- A step does the same to a state with the unread parts put otherwise, but for the buffer length, which the resize
check makes anew from the one there was. -/
theorem engineStep_withUnread {s t : State} (h : engineStep s = .next t) (len : Nat) :
    ∃ len', ∀ earlier plan, EarlierUnseen earlier s →
      engineStep (s.withUnread earlier len plan) = .next (t.withUnread earlier len' plan) := by
  by_cases hs : s.status = .running
  · refine ⟨if s.held then len else resizedLen s.sp len, fun earlier plan hearlier => ?_⟩
    rw [engineStep_running hs] at h
    rw [engineStep_running (s := s.withUnread earlier len plan) hs, beginStep_withUnread]
    cases hf : s.beginStep.fetch with
    | error tr =>
      cases (runInstruction_fault hf).symm.trans h
      exact runInstruction_fault (s := s.beginStep.withUnread earlier _ plan) hf
    | ok i =>
      rw [runInstruction_exec hf] at h
      rw [runInstruction_exec (s := s.beginStep.withUnread earlier _ plan) hf]
      exact exec_withUnread _ _ _ (by rwa [EarlierUnseen, s.beginStep_config]) h
  · cases (engineStep_stopped hs).symm.trans h
    exact ⟨len, fun earlier plan _ => engineStep_stopped (s := s.withUnread earlier len plan) hs⟩

theorem engineRun_succ {n : Nat} {s t : State} (h : engineStep s = .next t) : engineRun (n + 1) s = engineRun n t := by
  rw [engineRun, h]

theorem engineRun_completes (n : Nat) (s : State) : ∃ t, engineRun n s = some t := by
  induction n generalizing s with
  | zero => exact ⟨s, rfl⟩
  | succ n ih =>
    obtain ⟨u, hu⟩ := engineStep_answers_next s
    rw [engineRun_succ hu]
    exact ih u

theorem engineRun_withUnread {n : Nat} {s t : State} (h : engineRun n s = some t) (len : Nat) :
    ∃ len', ∀ earlier plan, EarlierUnseen earlier s →
      engineRun n (s.withUnread earlier len plan) = some (t.withUnread earlier len' plan) := by
  induction n generalizing s len with
  | zero =>
    cases h
    exact ⟨len, fun _ _ _ => rfl⟩
  | succ n ih =>
    obtain ⟨u, hu⟩ := engineStep_answers_next s
    rw [engineRun_succ hu] at h
    obtain ⟨len', hstep⟩ := engineStep_withUnread hu len
    obtain ⟨len'', hrun⟩ := ih h len'
    refine ⟨len'', fun earlier plan hearlier => ?_⟩
    have hearlier' : EarlierUnseen earlier u := by rwa [EarlierUnseen, (engineStep_keeps hu).config]
    rw [engineRun_succ (hstep earlier plan hearlier)]
    exact hrun earlier plan hearlier'

/-! ### The buffer length (R31, R40) and the past before a reset (R116) -/

theorem engineStep_schedule {s t : State} (h : engineStep s = .next t) : t.schedule = s.schedule := by
  obtain ⟨-, rfl⟩ | ⟨-, tr, -, -, rfl⟩ | ⟨-, i, -, he⟩ := engineStep_cases h
  · rfl
  · exact s.beginStep_schedule
  · obtain ⟨-, -, hplan⟩ := he.frame.hidden
    exact hplan.trans s.beginStep_schedule

theorem engineRun_schedule {n : Nat} {s t : State} (h : engineRun n s = some t) : t.schedule = s.schedule := by
  induction n generalizing s with
  | zero => cases h; rfl
  | succ n ih =>
    obtain ⟨u, hu⟩ := engineStep_answers_next s
    rw [engineRun_succ hu] at h
    exact (ih h).trans (engineStep_schedule hu)

/-- Settles O57: the other length is an unread part put otherwise, with no earlier output and the same plan. -/
theorem stackBufferLengthIsUnobservable : Obligations.StackBufferLengthIsUnobservable := by
  intro n s len
  obtain ⟨t, ht⟩ := engineRun_completes n s
  obtain ⟨len', hrun⟩ := engineRun_withUnread ht len
  refine ⟨t, _, ht, hrun [] s.schedule (.inl rfl), ?_⟩
  rw [← engineRun_schedule ht]
  rfl

/-- The state that reset makes of the parameters, the input and the closed flags, with no output yet. -/
def State.freshReset (s : State) : State := ({ s with outQ := [], schedule := [] } : State).applyReset

theorem applyReset_eq_withUnread (s : State) :
    s.applyReset = s.freshReset.withUnread s.outQ stackFloor s.schedule := by
  have hempty : s.freshReset.outQ = [] := rfl
  rw [State.withUnread, hempty, List.append_nil]
  rfl

theorem freshReset_congr {s t : State} (hconfig : s.config = t.config) (hin : s.inQ = t.inQ)
    (hinClosed : s.inClosed = t.inClosed) (houtClosed : s.outClosed = t.outClosed) : s.freshReset = t.freshReset := by
  simp only [State.freshReset, State.applyReset, hconfig, hin, hinClosed, houtClosed]

/-- Settles O58: after their resets the two states are one with the unread parts put otherwise, and so are the ends of
their runs. -/
theorem runsAfterResetAreTheSame : Obligations.RunsAfterResetAreTheSame := by
  intro n s t hconfig hcap hin hinClosed houtClosed
  obtain ⟨u, hu⟩ := engineRun_completes n s.freshReset
  obtain ⟨len, hrun⟩ := engineRun_withUnread hu stackFloor
  have hs := hrun s.outQ s.schedule (.inr hcap)
  have ht := hrun t.outQ t.schedule (.inr hcap)
  rw [← applyReset_eq_withUnread] at hs
  rw [freshReset_congr hconfig hin hinClosed houtClosed, ← applyReset_eq_withUnread] at ht
  exact ⟨_, _, u.outQ, hs, ht, rfl, rfl, rfl⟩

end Sys2Proof.Machine
end
